-- ==== Sys2Proof/Word.lean ====
section
/-! DEFINITION. The word types of the block: bytes of the streams, lanes of the sponge state,
32-bit command and port words (rules R11, R21, R32, R59). -/

namespace Sys2Proof

/-- A byte of a stream, of the buffer or of the sponge state (R11). -/
abbrev Byte := BitVec 8

/-- A lane of the sponge state (R5 `LANE_BITS`, R21). -/
abbrev Lane := BitVec 64

/-- A 32-bit command word (R59, R71). -/
abbrev CmdWord := BitVec 32

/-- A 32-bit side port value (R58). -/
abbrev PortWord := BitVec 32

/-- The sponge state `S`: 25 lanes (R5 `LANES`, R21). -/
abbrev Sponge := Vector Lane 25

end Sys2Proof
end

