-- ==== Sys2Proof/Machine/Operands.lean ====
section
/-! DEFINITION. How the sponge state is read and written: lanes, and bytes in the little-endian layout
(rules R12, R51 to R55). -/

namespace Sys2Proof.Machine

/-- `S[j]` (R12). The spec reads only 0 ≤ j ≤ 24; elsewhere this is 0 (log 14). -/
def lane (S : Sponge) (j : Nat) : Lane := S.toList.getD j 0#64

/-- `S[j] <- v` (R12). Outside 0 ≤ j ≤ 24 it writes nothing (log 14). -/
def setLane (S : Sponge) (j : Nat) (v : Lane) : Sponge := S.setIfInBounds j v

/-- The 25-lane state whose lane j is `f j`. -/
def tabulate (f : Nat → Lane) : Sponge :=
  ⟨⟨[0, 1, 2, 3, 4, 5, 6, 7, 8, 9, 10, 11, 12, 13, 14, 15, 16, 17, 18, 19, 20, 21, 22, 23, 24].map f⟩,
    by simp⟩

/-- All lanes 0 (R36). -/
def zeroSponge : Sponge := Vector.replicate 25 0#64

/-- Byte i of a lane, counting byte 0 as the least significant (R52). -/
def laneByte (v : Lane) (i : Nat) : Byte := v.extractLsb' (8 * i) 8

/-- A lane with its byte i replaced (R52). -/
def setLaneByte (v : Lane) (i : Nat) (b : Byte) : Lane :=
  (v &&& ~~~(0xFF#64 <<< (8 * i))) ||| (b.setWidth 64 <<< (8 * i))

/-- `StateByte(S, k)` (R12, R52). -/
def stateByte (S : Sponge) (k : Nat) : Byte := laneByte (lane S (k / 8)) (k % 8)

/-- `StateByte(S, k) <- b`: those 8 bits of lane `k div 8` and no others (R52). -/
def setStateByte (S : Sponge) (k : Nat) (b : Byte) : Sponge :=
  setLane S (k / 8) (setLaneByte (lane S (k / 8)) (k % 8) b)

/-- `Bytes_LE(S)`, the 200 bytes of the state in order (R53). -/
def bytesLE (S : Sponge) : List Byte := (List.range 200).map (stateByte S)

end Sys2Proof.Machine
end

