-- ==== Sys2Proof/Machine/Keccak.lean ====
section
/-! DEFINITION. `P_PERMUTE` (rules R10, R100), instantiated as a conformant build has it: Keccak-f[1600]
(rules R200 to R203, which the spec marks as general knowledge; log 2). -/

namespace Sys2Proof.Machine

/-- Lane `A[x, y]`, which is `S[x + 5y]`; x and y are taken mod 5 (R200). -/
def laneXY (A : Sponge) (x y : Nat) : Lane := lane A (x % 5 + 5 * (y % 5))

/-- The state whose lane `A[x, y]` is `f x y` (R200). -/
def tabulateXY (f : Nat → Nat → Lane) : Sponge := tabulate fun j => f (j % 5) (j / 5)

/-- `rot(v, n)` for 0 ≤ n ≤ 63: bit z of the result is bit (z - n) mod 64 of `v` (R200). -/
def rot (v : Lane) (n : Nat) : Lane := v <<< n ||| v >>> (64 - n)

/-- The rotation offsets `r[x, y]`, row by row: entry x + 5y (R202). -/
def rotationOffsets : List Nat :=
  [0, 1, 62, 28, 27,
   36, 44, 6, 55, 20,
   3, 10, 43, 25, 39,
   41, 45, 15, 21, 8,
   18, 2, 61, 56, 14]

/-- `r[x, y]` (R202). -/
def rotationOffset (x y : Nat) : Nat := rotationOffsets.getD (x % 5 + 5 * (y % 5)) 0

/-- The round constants `RC[0]` to `RC[23]` (R203). -/
def roundConstants : List Lane :=
  [0x0000000000000001#64, 0x0000000000008082#64, 0x800000000000808A#64, 0x8000000080008000#64,
   0x000000000000808B#64, 0x0000000080000001#64, 0x8000000080008081#64, 0x8000000000008009#64,
   0x000000000000008A#64, 0x0000000000000088#64, 0x0000000080008009#64, 0x000000008000000A#64] ++
  [0x000000008000808B#64, 0x800000000000008B#64, 0x8000000000008089#64, 0x8000000000008003#64,
   0x8000000000008002#64, 0x8000000000000080#64, 0x000000000000800A#64, 0x800000008000000A#64,
   0x8000000080008081#64, 0x8000000000008080#64, 0x0000000080000001#64, 0x8000000080008008#64]

/-- The column parities `C[0]` to `C[4]` of theta (R201). -/
def columnParities (A : Sponge) : List Lane :=
  [0, 1, 2, 3, 4].map fun x =>
    laneXY A x 0 ^^^ laneXY A x 1 ^^^ laneXY A x 2 ^^^ laneXY A x 3 ^^^ laneXY A x 4

/-- `C[x]`, x taken mod 5 (R200, R201). -/
def columnParity (C : List Lane) (x : Nat) : Lane := C.getD (x % 5) 0#64

/-- `D[0]` to `D[4]` of theta: `C[x-1] ^ rot(C[x+1], 1)` (R201); x - 1 is x + 4 mod 5. -/
def thetaEffects (C : List Lane) : List Lane :=
  [0, 1, 2, 3, 4].map fun x => columnParity C (x + 4) ^^^ rot (columnParity C (x + 1)) 1

/-- theta (R201). -/
def theta (A : Sponge) : Sponge :=
  tabulateXY fun x y => laneXY A x y ^^^ columnParity (thetaEffects (columnParities A)) x

/-- rho and pi (R201), `B[y, 2x+3y] <- rot(A[x, y], r[x, y])`, read from the side of the lane written:
`B[u, v]` comes from y = u and x = u + 3v, since 2(u + 3v) + 3u = v mod 5 (log 2). -/
def rhoPi (A : Sponge) : Sponge :=
  tabulateXY fun u v => rot (laneXY A (u + 3 * v) u) (rotationOffset (u + 3 * v) u)

/-- chi (R201). -/
def chi (B : Sponge) : Sponge :=
  tabulateXY fun x y => laneXY B x y ^^^ (~~~(laneXY B (x + 1) y) &&& laneXY B (x + 2) y)

/-- iota (R201). -/
def iota (rc : Lane) (A : Sponge) : Sponge := setLane A 0 (lane A 0 ^^^ rc)

/-- One round: theta, rho, pi, chi, iota in that order (R201). -/
def keccakRound (A : Sponge) (rc : Lane) : Sponge := iota rc (chi (rhoPi (theta A)))

/-- `Keccak-f[1600]`: 24 rounds (R201). -/
def keccakF1600 (A : Sponge) : Sponge := roundConstants.foldl keccakRound A

/-- `P_PERMUTE` of a conformant build (R10). -/
def permute (S : Sponge) : Sponge := keccakF1600 S

end Sys2Proof.Machine
end

