-- ==== Sys2Proof/Config.lean ====
section
/-! DEFINITION. What is fixed when the block is built: the variant (rules R2, R8). The values derived
from it are in Machine/Params.lean. -/

namespace Sys2Proof

/-- The four output sizes a variant may have (R2). -/
inductive OutSize where
  | b224
  | b256
  | b384
  | b512
deriving DecidableEq, Repr

/-- The two paddings a variant may have (R2). -/
inductive Padding where
  | legacyKeccak
  | sha3
deriving DecidableEq, Repr

/-- A variant is a pair of an output size and a padding (R2), chosen when the block is built. -/
structure Variant where
  size : OutSize
  padding : Padding
deriving DecidableEq, Repr

end Sys2Proof
end

