-- ==== Sys2Proof/Machine/Params.lean ====
section
/-! DEFINITION. The values derived from the built variant, and the check made when a block is built
(rules R5 to R9, R33, R220). -/

namespace Sys2Proof.Machine

/-- `LANES` (R5). -/
def lanes : Nat := 25

/-- `LANE_BITS` (R5). -/
def laneBits : Nat := 64

/-- `STATE_BYTES` (R5). -/
def stateBytes : Nat := 200

/-- `RATE` of an output size in bits (R6). -/
def rateOf (outBits : Nat) : Nat := (1600 - 2 * outBits) / 8

/-- `OUT_BYTES` of an output size in bits (R6). -/
def outBytesOf (outBits : Nat) : Nat := outBits / 8

/-- `OUT_BITS` (R2, R5). -/
def outBits (v : Variant) : Nat :=
  match v.size with
  | .b224 => 224
  | .b256 => 256
  | .b384 => 384
  | .b512 => 512

/-- `OUT_BYTES` (R6). -/
def outBytes (v : Variant) : Nat := outBytesOf (outBits v)

/-- `RATE` in bytes (R6). -/
def rate (v : Variant) : Nat := rateOf (outBits v)

/-- The padding byte of the legacy Keccak variants (R9). -/
def padLegacy : Byte := 0x01#8

/-- `PAD_SHA3` at its default (R9; PRESUMED, the spec marks it as general knowledge; log 3). -/
def padSha3 : Byte := 0x06#8

/-- `PAD` (R9). -/
def pad (v : Variant) : Byte :=
  match v.padding with
  | .legacyKeccak => padLegacy
  | .sha3 => padSha3

/-- `VARIANT[1:0]`, the size (R8). -/
def sizeCode (z : OutSize) : BitVec 2 :=
  match z with
  | .b224 => 0#2
  | .b256 => 1#2
  | .b384 => 2#2
  | .b512 => 3#2

/-- `VARIANT[2]`, the padding (R8). -/
def paddingCode (p : Padding) : BitVec 1 :=
  match p with
  | .legacyKeccak => 0#1
  | .sha3 => 1#1

/-- The `VARIANT` code 0..7 (R8): the padding above the size. -/
def variantCode (v : Variant) : BitVec 3 := paddingCode v.padding ++ sizeCode v.size

/-- The size a code selects. -/
def sizeOfCode (c : BitVec 2) : OutSize :=
  if c = 0#2 then .b224 else if c = 1#2 then .b256 else if c = 2#2 then .b384 else .b512

/-- The padding a code selects. -/
def paddingOfCode (c : BitVec 1) : Padding := if c = 0#1 then .legacyKeccak else .sha3

/-- The variant a `VARIANT` code selects (R8). -/
def variantOfCode (c : BitVec 3) : Variant :=
  ⟨sizeOfCode (c.extractLsb' 0 2), paddingOfCode (c.extractLsb' 2 1)⟩

/-- The validity test of a configuration (R7). -/
def validConfig (bits : Nat) : Bool :=
  decide (1 ≤ rateOf bits) && decide (rateOf bits ≤ 200) && decide (outBytesOf bits ≤ rateOf bits)

/-- The sizes a block may be built in (R2; U11: no other, even where R7's test alone would admit it). -/
def sizeOfBits (bits : Nat) : Option OutSize :=
  if bits = 224 then some .b224
  else if bits = 256 then some .b256
  else if bits = 384 then some .b384
  else if bits = 512 then some .b512
  else none

/-- The paddings a block may be built with (R9: no other `PAD` value is in scope). -/
def paddingOfByte (b : Byte) : Option Padding :=
  if b = padLegacy then some .legacyKeccak else if b = padSha3 then some .sha3 else none

/-- Building a block: refused (`none`) when the configuration is not valid (R7, R220, U11). -/
def build (bits : Nat) (padByte : Byte) : Option Variant :=
  if validConfig bits then
    match sizeOfBits bits, paddingOfByte padByte with
    | some z, some p => some ⟨z, p⟩
    | _, _ => none
  else none

end Sys2Proof.Machine
end

