-- ==== Sys2Proof/Syntax.lean ====
section
/-! DEFINITION. The commands of the block, one constructor per row of spec/opcode_table.json (rules R71 to R73). -/

namespace Sys2Proof

/-- A command as its word gives it. The payload of UPDATE is not part of the word: the command
takes it from the command stream (R130). -/
inductive Instr where
  /-- UPDATE: append the next `len` bytes of the command stream to the message (R130).
  LEN is a count, an exact natural number (R14). -/
  | update (len : Nat)
  /-- FINALIZE: pad, absorb the final block, output the digest (R160). -/
  | finalize
  /-- RESET: make the block fresh (R190). -/
  | reset
deriving DecidableEq, Repr

end Sys2Proof
end

