-- ==== Sys2Proof/Machine/State.lean ====
section
/-! DEFINITION. The state of the block and of its two streams as plain data, and the state right after `rst`
(rules R20 to R27, R36, R37, R56, R57, R260). -/

namespace Sys2Proof.Machine

/-- `PHASE`, the lifecycle phase (R26). -/
inductive Phase where
  /-- The session is open: UPDATE, FINALIZE and RESET are accepted. -/
  | absorbing
  /-- FINALIZE has run: only RESET is accepted. -/
  | finalized
  /-- A fault was raised: no command is accepted until `rst`. -/
  | fault
deriving DecidableEq, Repr

/-- `ERR`, the fault code (R27, R221). -/
inductive Err where
  | none
  | illegalCmd
  | useAfterFinal
deriving DecidableEq, Repr

/-- How many further digest bytes the host takes as they are offered (R57, R264): all of them, or a
number and then no more until the host says otherwise. -/
inductive Taking where
  | always
  | upTo (n : Nat)
deriving DecidableEq, Repr

/-- The block's state (R20) and, under it, the model's own fields: the built variant, the command in
progress, the two streams and the host's inputs (log 1, 4, 5, 6, 7). -/
structure State where
  /-- The variant the block was built in (R2). A parameter, never written (log 1). -/
  variant : Variant
  /-- `S`, the sponge state (R21). -/
  sponge : Sponge
  /-- `BUF`, the pending buffer's valid bytes (R23). `BUFSZ` is its length. -/
  buf : List Byte
  /-- `PHASE` (R26). -/
  phase : Phase
  /-- `ERR` (R27). -/
  err : Err
  /-- LEN of an UPDATE whose word is taken and whose payload is not all there yet (R56; log 5). -/
  pending : Option Nat
  /-- The bytes of the command stream that are sent and not yet taken, in order (R56; log 4). -/
  cmd : List Byte
  /-- The bytes on the digest stream that the host has not taken, in order (R57; log 4). -/
  digest : List Byte
  /-- The digest bytes the host has taken, oldest first (R271; log 4). -/
  received : List Byte
  /-- Which digest bytes the host takes (R57, R264; log 7). -/
  taking : Taking
  /-- The hardware reset input: `some b` says that `rst` is applied and that `b` is what then stands
  on the command stream (R260, R264; log 6). -/
  rst : Option (List Byte)
deriving DecidableEq, Repr

/-- Reasons the machine stops. There is none: every fault of the spec (ILLEGAL_CMD and USE_AFTER_FINAL,
R221) is the entry of the FAULT phase, which R222 describes and the model takes as a next state, and a
wait is no fault (R267). Nobody raises this type (log 10). -/
inductive Fault where
deriving DecidableEq, Repr

/-- Reasons the model gives an instruction no meaning. -/
inductive Refusal where
  /-- Raised only by an arm of `exec` whose instruction has no meaning yet (safe). No arm does. -/
  | notModelled (mnemonic : String)
deriving DecidableEq, Repr

/-- `BUFSZ` (R23, R25). -/
abbrev State.bufsz (s : State) : Nat := s.buf.length

/-- The state `rst` leaves in a block built as `v`, with nothing on either stream (R37, R260). -/
def State.resetOf (v : Variant) : State where
  variant := v
  sponge := Vector.replicate 25 0
  buf := []
  phase := .absorbing
  err := .none
  pending := none
  cmd := []
  digest := []
  received := []
  taking := .always
  rst := none

/-- The state right after reset (R37). The variant, Keccak-256, is the model's choice (log 1). -/
def State.reset : State := State.resetOf ⟨.b256, .legacyKeccak⟩

end Sys2Proof.Machine
end

