-- ==== Sys2Proof/Machine/Ops.lean ====
section
/-! DEFINITION. The operations the commands share: the absorb and squeeze primitives over any permutation
(rules R100 to R107), the buffering of a chunk (R130 to R135), the padded block (R161 to R163), the two
streams (R56, R57), the entry of FAULT (R222) and the hardware reset (R260). -/

namespace Sys2Proof.Machine

/-! ## The datapath -/

/-- XOR bytes into the state from state byte `i` on (the inner loop of R102). -/
def xorBytes (S : Sponge) (i : Nat) : List Byte → Sponge
  | [] => S
  | b :: rest => xorBytes (setStateByte S i (stateByte S i ^^^ b)) (i + 1) rest

/-- Block byte k meets state byte k (R54). -/
def xorBlock (S : Sponge) (block : List Byte) : Sponge := xorBytes S 0 block

/-- The loop of Absorb (R102). Each turn takes `r ≥ 1` bytes, so `fuel = |data|` turns are enough. -/
def absorbLoop (P : Sponge → Sponge) (r : Nat) : Nat → Sponge → List Byte → Sponge × Nat
  | 0, S, data => (S, data.length)
  | fuel + 1, S, data =>
    if r ≤ data.length then absorbLoop P r fuel (P (xorBlock S (data.take r))) (data.drop r)
    else (S, data.length)

/-- `Absorb(S, data, RATE)`: the new state and the count of trailing bytes not consumed (R101, R102). -/
def absorb (P : Sponge → Sponge) (r : Nat) (S : Sponge) (data : List Byte) : Sponge × Nat :=
  absorbLoop P r data.length S data

/-- The loop of Squeeze (R105): `left` bytes are still to come; each turn gives at least one. -/
def squeezeLoop (P : Sponge → Sponge) (r : Nat) : Nat → Nat → Sponge → List Byte × Sponge
  | 0, _, S => ([], S)
  | fuel + 1, left, S =>
    if left = 0 then ([], S)
    else if min r left < left then
      let more := squeezeLoop P r fuel (left - min r left) (P S)
      ((bytesLE S).take (min r left) ++ more.1, more.2)
    else ((bytesLE S).take (min r left), S)

/-- `Squeeze(S, n, RATE)`: the `n` bytes and the new state (R105). -/
def squeeze (P : Sponge → Sponge) (r n : Nat) (S : Sponge) : List Byte × Sponge :=
  squeezeLoop P r n n S

/-- Steps 4 and 5 of UPDATE: absorb the whole blocks of `data`, keep the bytes left over (R134, R135). -/
def absorbKeep (P : Sponge → Sponge) (r : Nat) (S : Sponge) (data : List Byte) : Sponge × List Byte :=
  ((absorb P r S data).1, data.drop (data.length - (absorb P r S data).2))

/-- Steps 1 to 5 of UPDATE on `S` and `BUF` (R130 to R135). -/
def absorbChunk (P : Sponge → Sponge) (r : Nat) (S : Sponge) (buf data : List Byte) :
    Sponge × List Byte :=
  if data.length = 0 then (S, buf)
  else if 0 < buf.length then
    if data.length < r - buf.length then (S, buf ++ data)
    else
      absorbKeep P r (absorb P r S (buf ++ data.take (r - buf.length))).1
        (data.drop (r - buf.length))
  else absorbKeep P r S data

/-- Step 1 of FINALIZE: the buffer with its unused tail zero-filled (R161). -/
def zeroFill (r : Nat) (buf : List Byte) : List Byte := buf ++ List.replicate (r - buf.length) 0x00#8

/-- Step 3 of FINALIZE: OR 0x80 into the byte at index `r - 1` (R163). -/
def markEnd (r : Nat) (block : List Byte) : List Byte :=
  block.set (r - 1) (block.getD (r - 1) 0x00#8 ||| 0x80#8)

/-- The final block `B`: zero-fill, then `PAD` at index `BUFSZ`, then the end mark (R161 to R163). -/
def finalBlock (r : Nat) (p : Byte) (buf : List Byte) : List Byte :=
  markEnd r ((zeroFill r buf).set buf.length p)

/-! ## The streams -/

/-- `InRead(n)`: the next `n` bytes of the command stream and the state after they are taken; `none`
while fewer than `n` are there, and then nothing is taken (R13, R56; log 5). -/
def State.inRead (s : State) (n : Nat) : Option (List Byte × State) :=
  if s.cmd.length < n then none
  else some (s.cmd.take n, { s with cmd := s.cmd.drop n })

/-- The host takes the digest bytes it is willing to take, in order (R57, R264; log 7). -/
def State.hostTake (s : State) : State :=
  match s.taking with
  | .always => { s with received := s.received ++ s.digest, digest := [] }
  | .upTo n =>
    { s with
      received := s.received ++ s.digest.take n
      digest := s.digest.drop n
      taking := .upTo (n - s.digest.length) }

/-- `OutWrite(d)`: put `d` on the digest stream, byte 0 first; the host takes what it will (R57). -/
def State.outWrite (s : State) (d : List Byte) : State :=
  State.hostTake { s with digest := s.digest ++ d }

/-! ## Faults and the hardware reset -/

/-- `raise Fault(code)`: enter FAULT with that code and write nothing else (R222). -/
def State.raise (s : State) (code : Err) : State := { s with phase := .fault, err := code }

/-- The session made fresh: every element of R20 that RESET writes (R190). `ERR` is not among them. -/
def State.clearSession (s : State) : State :=
  { s with sponge := zeroSponge, buf := [], phase := .absorbing }

/-- `rst` (R260): the block is fresh, the command in progress is abandoned, the digest bytes not taken
are dropped, and `stream` is what the host has left or put on the command stream (R264; log 6). -/
def State.applyRst (s : State) (stream : List Byte) : State :=
  { s.clearSession with
    err := .none
    pending := none
    cmd := stream
    digest := []
    rst := none }

end Sys2Proof.Machine
end

