-- ==== Sys2Proof/Machine/Finalize.lean ====
section
/-! DEFINITION. FINALIZE (rules R160 to R168). -/

namespace Sys2Proof.Machine

/-- The state of the sponge after step 4 of FINALIZE: the final block absorbed (R164). -/
def finalSponge (P : Sponge → Sponge) (v : Variant) (S : Sponge) (buf : List Byte) : Sponge :=
  (absorb P (rate v) S (finalBlock (rate v) (pad v) buf)).1

/-- FINALIZE (R160), its word already taken: pad, absorb, squeeze, output, enter FINALIZED (R166). -/
def execFinalize (s : State) : Host.Outcome State Fault Refusal :=
  match s.phase with
  | .fault => .next s
  | .finalized => .next (s.raise .useAfterFinal)
  | .absorbing =>
    .next (State.outWrite
      { s with
        sponge := (squeeze permute (rate s.variant) (outBytes s.variant)
          (finalSponge permute s.variant s.sponge s.buf)).2
        buf := []
        phase := .finalized }
      (squeeze permute (rate s.variant) (outBytes s.variant)
        (finalSponge permute s.variant s.sponge s.buf)).1)

end Sys2Proof.Machine
end

