-- ==== Sys2Proof/Machine/Reset.lean ====
section
/-! DEFINITION. RESET (rules R190 to R193). -/

namespace Sys2Proof.Machine

/-- RESET (R190), its word already taken; in FAULT it is not executed (R191). -/
def execReset (s : State) : Host.Outcome State Fault Refusal :=
  match s.phase with
  | .fault => .next s
  | .finalized => .next s.clearSession
  | .absorbing => .next s.clearSession

end Sys2Proof.Machine
end

