-- ==== Sys2Proof/Machine/Update.lean ====
section
/-! DEFINITION. UPDATE (rules R130 to R142). -/

namespace Sys2Proof.Machine

/-- UPDATE (R130), its word already taken. The phase check comes before the payload read and before the
empty-input no-op (R225). While the payload is not all there the command is in progress (R56). In FAULT
no command is executed (R226). -/
def execUpdate (len : Nat) (s : State) : Host.Outcome State Fault Refusal :=
  match s.phase with
  | .fault => .next s
  | .finalized => .next (s.raise .useAfterFinal)
  | .absorbing =>
    match s.inRead len with
    | none => .next { s with pending := some len }
    | some (data, s1) =>
      .next { s1 with
        sponge := (absorbChunk permute (rate s.variant) s.sponge s.buf data).1
        buf := (absorbChunk permute (rate s.variant) s.sponge s.buf data).2 }

end Sys2Proof.Machine
end

