-- ==== Sys2Proof/WellFormed.lean ====
section
/-! DEFINITION. Which commands can be written in a command word (rules R72, R74). -/

namespace Sys2Proof

/-- A command has an encoding exactly when its LEN fits the 24 bits of `w[31:8]` (R74, D7);
FINALIZE and RESET have no operand. -/
def Instr.wellFormed : Instr → Bool
  | .update len => decide (len < 2 ^ 24)
  | .finalize => true
  | .reset => true

end Sys2Proof
end

