-- ==== Sys2Proof/Decode.lean ====
section
/-! DEFINITION. The command decoder (rules R59, R72 to R77), total on any bytes, and the encoder. -/

namespace Sys2Proof

/-- Why a command word selects no command (R76). -/
inductive IllegalWord where
  /-- OPC is 0x00 or 0x04 to 0xFF. -/
  | reservedOpcode
  /-- OPC is 0x02 or 0x03 and bits 31:8 are not all 0. -/
  | reservedField
deriving DecidableEq, Repr

/-- What the decoder finds at the front of a byte stream. -/
inductive Decoded where
  /-- A legal word; `rest` is the stream after its 4 bytes. -/
  | command (i : Instr) (rest : List Byte)
  /-- Fewer than 4 bytes are there: the decoder waits (R75). -/
  | needMore
  /-- An illegal word; its 4 bytes are taken (R224). -/
  | illegal (why : IllegalWord) (rest : List Byte)
deriving DecidableEq, Repr

/-- The word of 4 stream bytes in arrival order, least significant byte first (R59). -/
def wordOfBytes (b0 b1 b2 b3 : Byte) : CmdWord :=
  b0.setWidth 32 ||| b1.setWidth 32 <<< 8 ||| b2.setWidth 32 <<< 16 ||| b3.setWidth 32 <<< 24

/-- The 4 stream bytes of a word, in the order they are sent (R59). -/
def bytesOfWord (w : CmdWord) : List Byte :=
  [w.extractLsb' 0 8, w.extractLsb' 8 8, w.extractLsb' 16 8, w.extractLsb' 24 8]

/-- OPC, bits 7:0 (R72). -/
def opcField (w : CmdWord) : BitVec 8 := w.extractLsb' 0 8

/-- LEN or RSVD, bits 31:8 (R72). -/
def restField (w : CmdWord) : BitVec 24 := w.extractLsb' 8 24

/-- The decoder's choice for one word (R75, R76). -/
def decodeWord (w : CmdWord) : Except IllegalWord Instr :=
  if opcField w = 0x01#8 then .ok (.update (restField w).toNat)
  else if opcField w = 0x02#8 then
    if restField w = 0#24 then .ok .finalize else .error .reservedField
  else if opcField w = 0x03#8 then
    if restField w = 0#24 then .ok .reset else .error .reservedField
  else .error .reservedOpcode

/-- The decoder at the front of a byte stream (R75). -/
def decode : List Byte → Decoded
  | b0 :: b1 :: b2 :: b3 :: rest =>
    match decodeWord (wordOfBytes b0 b1 b2 b3) with
    | .ok i => .command i rest
    | .error why => .illegal why rest
  | _ => .needMore

/-- The command word of a command (R72): LEN above OPC for UPDATE, bits 31:8 zero for the others. -/
def encodeWord : Instr → CmdWord
  | .update len => (BitVec.ofNat 24 len).setWidth 32 <<< 8 ||| 0x00000001#32
  | .finalize => 0x00000002#32
  | .reset => 0x00000003#32

/-- The stream bytes of a command's word (R59, R71). The payload of an UPDATE follows them. -/
def encode (i : Instr) : List Byte := bytesOfWord (encodeWord i)

/-- How many bytes of the stream a command takes, payload and all (R71, R77). -/
def commandLength : Instr → Nat
  | .update len => 4 + len
  | .finalize => 4
  | .reset => 4

/-- The 4 bytes that hold the low `nbits` bits of `w`, every bit above them 0. -/
def tableWordBytes (nbits w : Nat) : List Byte :=
  bytesOfWord (BitVec.ofNat 32 (w % 2 ^ nbits))

/-- The command the decoder reads from a word given as the opcode table numbers its bits. -/
def decodeTableWord (nbits w : Nat) : Option Instr :=
  match decode (tableWordBytes nbits w) with
  | .command i _ => some i
  | .needMore => none
  | .illegal _ _ => none

end Sys2Proof
end

