-- ==== Sys2Proof/Machine/Fetch.lean ====
section
/-! DEFINITION. What the block does before a command runs: the reset input, the digest stream, the FAULT
phase, a command in progress, and the decoder at the front of the command stream (rules R56, R57, R75,
R226, R260). -/

namespace Sys2Proof.Machine

/-- What one step turns out to be. -/
inductive Fetched where
  /-- No command runs in this step, and this is the state after it. -/
  | settle (t : State)
  /-- The command `i` runs at `t`, its word taken. -/
  | run (i : Instr) (t : State)
deriving DecidableEq, Repr

/-- The decoder (R75). With fewer than 4 bytes it waits and takes nothing (R56). An illegal word is taken
and raises ILLEGAL_CMD (R76, R224). -/
def fetchWord (s : State) : Fetched :=
  match decode s.cmd with
  | .needMore => .settle s
  | .illegal _ rest => .settle (State.raise { s with cmd := rest } .illegalCmd)
  | .command i rest => .run i { s with cmd := rest }

/-- In a phase that accepts commands: an UPDATE whose word is taken goes on (R56), else the decoder runs (R75). -/
def fetchCommand (s : State) : Fetched :=
  match s.pending with
  | some len => .run (.update len) { s with pending := none }
  | none => fetchWord s

/-- The order in which one step looks: `rst` first, at any point (R260); then digest bytes the host has
not taken, before which no further command is taken (R57, R63); then FAULT, which takes no byte (R226);
then the command in progress or the next word. -/
def fetch (s : State) : Fetched :=
  match s.rst with
  | some stream => .settle (s.applyRst stream)
  | none =>
    match s.digest with
    | _ :: _ => .settle s.hostTake
    | [] =>
      match s.phase with
      | .fault => .settle s
      | .finalized => fetchCommand s
      | .absorbing => fetchCommand s

/-- How many payload bytes follow a word. -/
def payloadBytes (word : List Byte) : Nat :=
  match decode word with
  | .command (.update len) _ => len
  | .command .finalize _ => 0
  | .command .reset _ => 0
  | .needMore => 0
  | .illegal _ _ => 0

/-- The stream bytes of a command given as the opcode table numbers its bits: its word, then a payload of
zeros as long as the word asks for. -/
def tableStream (nbits w : Nat) : List Byte :=
  tableWordBytes nbits w ++ List.replicate (payloadBytes (tableWordBytes nbits w)) 0x00#8

/-- `s` made ready to take that command next: nothing in progress, nothing on the digest stream, `rst` not
applied, not in FAULT, and the command's bytes on the command stream (log 9). -/
def readyWith (s : State) (stream : List Byte) : State :=
  { s with
    phase := match s.phase with
      | .fault => .absorbing
      | .finalized => .finalized
      | .absorbing => .absorbing
    err := .none
    pending := none
    cmd := stream
    digest := []
    rst := none }

end Sys2Proof.Machine
end

