-- ==== Sys2Proof/Machine/Step.lean ====
section
/-! DEFINITION. One step of the block. -/

namespace Sys2Proof.Machine

/-- One step: a settled step, or the command that is next (`fetch`, `exec`). A command is one step (R265). -/
def step (s : State) : Host.Outcome State Fault Refusal :=
  match fetch s with
  | .settle t => .next t
  | .run i t => exec i t

/-- `s` with a command's bytes where the next step takes its command from: the command stream (log 9). -/
def State.withFetchWord (s : State) (nbits w : Nat) : State := readyWith s (tableStream nbits w)

end Sys2Proof.Machine
end

