-- ==== Sys2Proof/Machine/Assembler.lean ====
section
/-! DEFINITION. The assembly syntax of a command stream and its pseudo-commands (rules R78, R79): the bytes a
line stands for, and a reader of one line of text (log 15). -/

namespace Sys2Proof.Machine

/-- The payload forms of R78. -/
inductive Payload where
  /-- `"text"`: ASCII, no escapes. -/
  | text (chars : List Char)
  /-- `hex:<pairs>`. -/
  | hex (bytes : List Byte)
  /-- `fill:<n>x<bb>`. -/
  | fill (n : Nat) (b : Byte)
deriving DecidableEq, Repr

/-- One line of assembly: the commands of R78, the pseudo-commands of R79, and a line that encodes nothing. -/
inductive AsmLine where
  | update (p : Payload)
  | finalize
  | reset
  | word (w : CmdWord)
  | nop
  | hash (p : Payload)
  | updateLong (p : Payload)
  | blank
deriving DecidableEq, Repr

/-- The bytes a payload form stands for (R78). -/
def payloadOf : Payload → List Byte
  | .text chars => chars.map fun c => BitVec.ofNat 8 c.toNat
  | .hex bytes => bytes
  | .fill n b => List.replicate n b

/-- The largest LEN (R74). -/
def maxLen : Nat := 16777215

/-- One UPDATE with its payload, as stream bytes (R71). -/
def updateBytes (data : List Byte) : List Byte := encode (.update data.length) ++ data

/-- `data` cut into pieces of at most `m` bytes, in order; `fuel` turns, each taking one piece. -/
def cutInto (m : Nat) : Nat → List Byte → List (List Byte)
  | 0, _ => []
  | fuel + 1, data =>
    if data.length ≤ m then [data] else data.take m :: cutInto m fuel (data.drop m)

/-- The payloads of the UPDATE commands that `UPDATE_LONG` expands to (R79): at least one, so that it does
what one UPDATE of the payload does, also when the payload is empty (log 15). -/
def longPieces (data : List Byte) : List (List Byte) := cutInto maxLen (data.length + 1) data

/-- The stream bytes of a line (R78, R79). `none`: an UPDATE of more than 16777215 bytes, which no command
word can carry (R74, D7). -/
def assemble : AsmLine → Option (List Byte)
  | .update p => if (payloadOf p).length ≤ maxLen then some (updateBytes (payloadOf p)) else none
  | .finalize => some (encode .finalize)
  | .reset => some (encode .reset)
  | .word w => some (bytesOfWord w)
  | .nop => some (updateBytes [])
  | .hash p =>
    if (payloadOf p).length ≤ maxLen then
      some (encode .reset ++ updateBytes (payloadOf p) ++ encode .finalize)
    else none
  | .updateLong p => some ((longPieces (payloadOf p)).flatMap updateBytes)
  | .blank => some []

/-! ## Reading one line of text -/

/-- The value of a hexadecimal digit. -/
def hexDigit (c : Char) : Option Nat :=
  if '0' ≤ c ∧ c ≤ '9' then some (c.toNat - '0'.toNat)
  else if 'a' ≤ c ∧ c ≤ 'f' then some (c.toNat - 'a'.toNat + 10)
  else if 'A' ≤ c ∧ c ≤ 'F' then some (c.toNat - 'A'.toNat + 10)
  else none

/-- The value of a decimal digit. -/
def decDigit (c : Char) : Option Nat :=
  if '0' ≤ c ∧ c ≤ '9' then some (c.toNat - '0'.toNat) else none

/-- A numeral read digit by digit on top of `acc`. -/
def readDigits (base : Nat) (digit : Char → Option Nat) (acc : Nat) : List Char → Option Nat
  | [] => some acc
  | c :: rest =>
    match digit c with
    | some d => readDigits base digit (acc * base + d) rest
    | none => none

/-- Hex pairs, one byte each (R11, R78). -/
def readPairs : List Char → Option (List Byte)
  | [] => some []
  | [_] => none
  | h :: l :: rest =>
    match hexDigit h, hexDigit l, readPairs rest with
    | some a, some b, some more => some (BitVec.ofNat 8 (16 * a + b) :: more)
    | _, _, _ => none

/-- The text after a word that must stand first, or `none`. -/
def afterWord : List Char → List Char → Option (List Char)
  | [], rest => some rest
  | _ :: _, [] => none
  | w :: ws, c :: cs => if w = c then afterWord ws cs else none

/-- Without the spaces in front. -/
def dropSpaces (cs : List Char) : List Char := cs.dropWhile (· = ' ')

/-- What may stand after a command: spaces, and a comment from `#` on. -/
def onlyComment (cs : List Char) : Bool :=
  match dropSpaces cs with
  | [] => true
  | c :: _ => c = '#'

/-- The text up to a space or a comment. -/
def token (cs : List Char) : List Char := cs.takeWhile fun c => c ≠ ' ' ∧ c ≠ '#'

/-- The text after that token. -/
def afterToken (cs : List Char) : List Char := cs.dropWhile fun c => c ≠ ' ' ∧ c ≠ '#'

/-- `fill:<n>x<bb>` after its `fill:`: a decimal count, `x`, one hex pair. -/
def readFill (cs : List Char) : Option Payload :=
  match cs.takeWhile (· ≠ 'x'), cs.dropWhile (· ≠ 'x') with
  | n :: ns, [_, h, l] =>
    match readDigits 10 decDigit 0 (n :: ns), readPairs [h, l] with
    | some k, some [b] => some (.fill k b)
    | _, _ => none
  | _, _ => none

/-- `"text"` after its first quote: ASCII up to the next quote, then nothing but a comment. -/
def readText (cs : List Char) : Option Payload :=
  match cs.dropWhile (· ≠ '"') with
  | [] => none
  | _ :: rest =>
    if onlyComment rest && (cs.takeWhile (· ≠ '"')).all (fun c => decide (c.toNat < 128)) then
      some (.text (cs.takeWhile (· ≠ '"')))
    else none

/-- A payload and what may follow it on the line (R78). -/
def readPayload (cs : List Char) : Option Payload :=
  match dropSpaces cs with
  | '"' :: rest => readText rest
  | rest =>
    if onlyComment (afterToken rest) then
      match afterWord ['h', 'e', 'x', ':'] (token rest), afterWord ['f', 'i', 'l', 'l', ':'] (token rest) with
      | some pairs, _ => (readPairs pairs).map .hex
      | none, some fill => readFill fill
      | none, none => none
    else none

/-- A `.word` operand: `0x` and 8 hex digits (R78). -/
def readWord (cs : List Char) : Option CmdWord :=
  if onlyComment (afterToken (dropSpaces cs)) then
    match token (dropSpaces cs) with
    | '0' :: 'x' :: digits =>
      if digits.length = 8 then (readDigits 16 hexDigit 0 digits).map (BitVec.ofNat 32) else none
    | _ => none
  else none

/-- A mnemonic that takes no operand. -/
def readBare (line : AsmLine) (cs : List Char) : Option AsmLine :=
  if onlyComment cs then some line else none

/-- One line of assembly text (R78, R79), or `none` where it is none. -/
def readLine (cs : List Char) : Option AsmLine :=
  if onlyComment cs then some .blank
  else
    let name := token (dropSpaces cs)
    let rest := afterToken (dropSpaces cs)
    if name = ['U', 'P', 'D', 'A', 'T', 'E'] then (readPayload rest).map .update
    else if name = ['F', 'I', 'N', 'A', 'L', 'I', 'Z', 'E'] then readBare .finalize rest
    else if name = ['R', 'E', 'S', 'E', 'T'] then readBare .reset rest
    else if name = ['.', 'w', 'o', 'r', 'd'] then (readWord rest).map .word
    else if name = ['N', 'O', 'P'] then readBare .nop rest
    else if name = ['H', 'A', 'S', 'H'] then (readPayload rest).map .hash
    else if name = ['U', 'P', 'D', 'A', 'T', 'E', '_', 'L', 'O', 'N', 'G'] then
      (readPayload rest).map .updateLong
    else none

/-- The stream bytes of one line of assembly text. -/
def assembleLine (cs : List Char) : Option (List Byte) := (readLine cs).bind assemble

end Sys2Proof.Machine
end

