-- ==== Sys2Proof/Machine/HostPort.lean ====
section
/-! DEFINITION. The host's moves (rules R238, R264, R271): what the outside world may do to the state between
two steps. The step is the block's move; it never calls these. -/

namespace Sys2Proof.Machine

/-- The host sends bytes: they stand on the command stream after those already there (R56, R264). -/
def State.hostSend (s : State) (bytes : List Byte) : State := { s with cmd := s.cmd ++ bytes }

/-- The host says which digest bytes it will take from now on (R57, R264). -/
def State.hostWilling (s : State) (taking : Taking) : State := { s with taking := taking }

/-- The host applies `rst` and restarts the command stream with `stream` (R260, R264; log 6). -/
def State.hostRst (s : State) (stream : List Byte) : State := { s with rst := some stream }

end Sys2Proof.Machine
end

