-- ==== Sys2Proof/Machine/Flags.lean ====
section
/-! DEFINITION. The two read-only side ports (rules R31 to R33, R58): STATUS, whose fields are the only flags
of the block, and PARAM. -/

namespace Sys2Proof.Machine

/-- The `PHASE` encoding (R26). -/
def phaseCode : Phase → BitVec 2
  | .absorbing => 0#2
  | .finalized => 1#2
  | .fault => 2#2

/-- The `ERR` codes (R221). -/
def errCode : Err → BitVec 4
  | .none => 0#4
  | .illegalCmd => 1#4
  | .useAfterFinal => 2#4

/-- STATUS (R32): `ERR` at 19:16, `BUFSZ` at 15:8, `PHASE` at 1:0, every other bit 0. -/
def State.status (s : State) : PortWord :=
  (errCode s.err).setWidth 32 <<< 16 ||| (BitVec.ofNat 8 s.bufsz).setWidth 32 <<< 8 |||
    (phaseCode s.phase).setWidth 32

/-- PARAM (R33): a constant of the built block. -/
def param (v : Variant) : PortWord :=
  (variantCode v).setWidth 32 <<< 24 ||| (pad v).setWidth 32 <<< 16 |||
    (BitVec.ofNat 8 (outBytes v)).setWidth 32 <<< 8 ||| (BitVec.ofNat 8 (rate v)).setWidth 32

/-- A command is in progress: an UPDATE waits for its payload, or a FINALIZE for the host to take its
digest (R56, R57, R265). -/
def State.commandInProgress (s : State) : Bool := s.pending.isSome || !s.digest.isEmpty

/-- `status_o` (R58). While a command is in progress it has no defined value (R265, U2; log 8). -/
def State.statusO (s : State) : Option PortWord :=
  if s.commandInProgress then none else some s.status

/-- `param_o` (R58), always driven with PARAM. -/
def State.paramO (s : State) : PortWord := param s.variant

end Sys2Proof.Machine
end

