-- ==== Sys2Proof/Machine/Message.lean ====
section
/-! DEFINITION. What a session computes, in terms of the whole message (rules R140, R168): the reference the
commands are held against. No command calls these. -/

namespace Sys2Proof.Machine

/-- `AbsorbFromZero(x)`: the state Absorb leaves when started from all-zero lanes (R140). -/
def absorbFromZero (P : Sponge → Sponge) (r : Nat) (x : List Byte) : Sponge :=
  (absorb P r zeroSponge x).1

/-- The whole blocks of a message, `m[0 .. q*RATE]` with q = |m| div RATE (R140). -/
def wholeBlocks (r : Nat) (m : List Byte) : List Byte := m.take (m.length / r * r)

/-- The rest of a message, `m[q*RATE .. |m|]` (R140). -/
def remainder (r : Nat) (m : List Byte) : List Byte := m.drop (m.length / r * r)

/-- `pad(m)` (R168): `m`, then `RATE - (|m| mod RATE)` bytes `PAD, 0, ..., 0`, and 0x80 ORed into the last
byte of the whole string. -/
def padMessage (r : Nat) (p : Byte) (m : List Byte) : List Byte :=
  markEnd (m.length + (r - m.length % r))
    (m ++ p :: List.replicate (r - m.length % r - 1) 0x00#8)

/-- The digest of a message (R168). -/
def messageDigest (v : Variant) (m : List Byte) : List Byte :=
  (bytesLE (absorbFromZero permute (rate v) (padMessage (rate v) (pad v) m))).take (outBytes v)

end Sys2Proof.Machine
end

