-- ==== Sys2Proof/Safety.lean ====
section
/-! DEFINITION. The terms claims use: the invariant of the state (R20, R25 to R27), fresh states (R36), states
that stand for a message (R140), states that take the next command (R75), and the end of a run (R271). -/

namespace Sys2Proof.Machine

/-- `n` steps of the block with no move of the host between them, stopping at the first step that stops. -/
def runSteps : Nat → State → Host.Outcome State Fault Refusal
  | 0, s => .next s
  | n + 1, s =>
    match step s with
    | .next t => runSteps n t
    | .fault why => .fault why
    | .refused why => .refused why

/-- What holds of the state at every step boundary. -/
structure State.Inv (s : State) : Prop where
  /-- `0 ≤ BUFSZ < RATE`, the central invariant (R25). -/
  bufBound : s.bufsz < rate s.variant
  /-- `BUF` is empty after FINALIZE (R25, R166). -/
  finalizedEmpty : s.phase = .finalized → s.buf = []
  /-- `ERR = 0` exactly when `PHASE ≠ FAULT` (R27). -/
  errExact : s.err = .none ↔ s.phase ≠ .fault
  /-- Only an UPDATE accepted in ABSORBING waits for a payload, and its LEN fits 24 bits (R56, R74). -/
  pendingOk : ∀ len, s.pending = some len → s.phase = .absorbing ∧ len < 2 ^ 24
  /-- Digest bytes wait only after a FINALIZE, at most `OUT_BYTES` of them, and no UPDATE waits with
  them (R57, R63). -/
  digestOk : s.digest ≠ [] →
    s.phase = .finalized ∧ s.pending = none ∧ s.digest.length ≤ outBytes s.variant

/-- A fresh instance (R36). -/
structure State.Fresh (s : State) : Prop where
  phaseAbsorbing : s.phase = .absorbing
  lanesZero : ∀ j, j < 25 → lane s.sponge j = 0#64
  bufEmpty : s.buf = []
  errNone : s.err = .none

/-- The state stands for the message `m`: its whole blocks absorbed from zero, the rest in `BUF` (R140). -/
structure State.Represents (s : State) (m : List Byte) : Prop where
  phaseAbsorbing : s.phase = .absorbing
  absorbed : s.sponge = absorbFromZero permute (rate s.variant) (wholeBlocks (rate s.variant) m)
  kept : s.buf = remainder (rate s.variant) m

/-- The block takes the next command word as soon as it is there (R75): `rst` is not applied, no command
is in progress, and the phase is not FAULT. -/
structure State.Accepting (s : State) : Prop where
  noRst : s.rst = none
  notPending : s.pending = none
  digestTaken : s.digest = []
  notFault : s.phase ≠ .fault

/-- A run has ended well (R271): the whole stream is taken, at a command boundary, in ABSORBING or FINALIZED. -/
structure State.GoodEnd (s : State) : Prop where
  accepting : s.Accepting
  streamTaken : s.cmd = []

/-- A run has ended badly (R271): the block is in FAULT, and no `rst` is applied. -/
structure State.BadEnd (s : State) : Prop where
  noRst : s.rst = none
  inFault : s.phase = .fault

end Sys2Proof.Machine
end

