-- ==== Sys2Proof/Certificates/Slice0/Obligations.lean ====
section
/-! DEFINITION. The statements about the block, from the numbered rules of the spec. `log n` names
notes/assumptions/n.md where a clause is the model's choice. -/

open Sys2Proof Sys2Proof.Machine

/-! ## Encoding -/

/-- Decoding the bytes of a command gives the command back, LEN at every value its 24 bits hold, and leaves the
bytes after the word (R71 to R75). -/
def Obligations.DecodeOfEncodeIsTheCommand : Prop :=
  ∀ (i : Instr) (rest : List Byte), i.wellFormed = true → decode (encode i ++ rest) = .command i rest

/-- Each word has one meaning: what decodes to a command is that command's own 4 bytes (R72, R73, R76). -/
def Obligations.EncodeOfDecodeIsTheWord : Prop :=
  ∀ (bs : List Byte) (i : Instr) (rest : List Byte), decode bs = .command i rest →
    i.wellFormed = true ∧ bs = encode i ++ rest

/-- R76, R224: the illegal words are those with OPC 0x00 or 0x04 to 0xFF and those with OPC 0x02 or 0x03 and bits
31:8 not 0; each raises ILLEGAL_CMD in ABSORBING and in FINALIZED alike, its 4 bytes taken and nothing more, and
every other word runs the one command it encodes. -/
def Obligations.WordRunsItsCommandOrRaisesIllegalCmd : Prop :=
  ∀ (s : State) (w : CmdWord) (rest : List Byte), s.Accepting → s.cmd = bytesOfWord w ++ rest →
    ((w.toNat % 256 = 0 ∨ 4 ≤ w.toNat % 256 ∨
        ((w.toNat % 256 = 2 ∨ w.toNat % 256 = 3) ∧ w.toNat / 256 ≠ 0)) →
      step s = .next { s with cmd := rest, phase := .fault, err := .illegalCmd }) ∧
    (¬ (w.toNat % 256 = 0 ∨ 4 ≤ w.toNat % 256 ∨
        ((w.toNat % 256 = 2 ∨ w.toNat % 256 = 3) ∧ w.toNat / 256 ≠ 0)) →
      ∃ i : Instr, i.wellFormed = true ∧ encodeWord i = w ∧ step s = exec i { s with cmd := rest })

/-- The encoding examples of R80 and two of the decoding vectors: one word for each command, one with a
reserved field and one with a reserved opcode. -/
def Obligations.SampleWordsDecode : Prop :=
  decode [0x01#8, 0x03#8, 0x00#8, 0x00#8, 0x61#8, 0x62#8, 0x63#8] =
      .command (.update 3) [0x61#8, 0x62#8, 0x63#8] ∧
  decode [0x01#8, 0x88#8, 0x00#8, 0x00#8] = .command (.update 136) [] ∧
  decode [0x01#8, 0xff#8, 0xff#8, 0xff#8] = .command (.update 16777215) [] ∧
  decode [0x02#8, 0x00#8, 0x00#8, 0x00#8] = .command .finalize [] ∧
  decode [0x03#8, 0x00#8, 0x00#8, 0x00#8] = .command .reset [] ∧
  decode [0x02#8, 0x01#8, 0x00#8, 0x00#8] = .illegal .reservedField [] ∧
  decode [0x00#8, 0x00#8, 0x00#8, 0x00#8] = .illegal .reservedOpcode []

/-- LEN is `w[31:8]`, unsigned and not scaled (R74). -/
def Obligations.LenIsTheUpper24Bits : Prop :=
  ∀ w : CmdWord, w.toNat % 256 = 1 → decodeWord w = .ok (.update (w.toNat / 256))

/-- R59: the word of 4 stream bytes is `b0 | b1 << 8 | b2 << 16 | b3 << 24`, as a number, and the bytes a word
is sent as are those 4 bytes in that order. -/
def Obligations.CommandWordIsLittleEndian : Prop :=
  ∀ b0 b1 b2 b3 : Byte,
    (wordOfBytes b0 b1 b2 b3).toNat =
      b0.toNat + b1.toNat * 2 ^ 8 + b2.toNat * 2 ^ 16 + b3.toNat * 2 ^ 24 ∧
    bytesOfWord (wordOfBytes b0 b1 b2 b3) = [b0, b1, b2, b3]

/-! ## Parameters, STATUS and PARAM -/

/-- R6: OUT_BYTES and RATE are computed from OUT_BITS, and for the four output sizes both divisions are exact. -/
def Obligations.RateAndOutBytesAreDerived : Prop :=
  (∀ v : Variant, outBytes v = outBits v / 8 ∧ rate v = (1600 - 2 * outBits v) / 8 ∧
    outBytes v * 8 = outBits v ∧ rate v * 8 + 2 * outBits v = 1600) ∧
  (∀ v : Variant, outBits v = 224 ∨ outBits v = 256 ∨ outBits v = 384 ∨ outBits v = 512)

/-- R7: a configuration is built only if `1 ≤ RATE ≤ 200` and `OUT_BYTES ≤ RATE`; all eight variants are built.
That a size outside the four of R2 is refused too follows U11. -/
def Obligations.OnlyValidConfigurationsAreBuilt : Prop :=
  (∀ (bits : Nat) (padByte : Byte) (v : Variant), build bits padByte = some v →
    outBits v = bits ∧ pad v = padByte ∧ 1 ≤ rate v ∧ rate v ≤ 200 ∧ outBytes v ≤ rate v) ∧
  (∀ (bits : Nat) (padByte : Byte),
    ¬ (1 ≤ (1600 - 2 * bits) / 8 ∧ (1600 - 2 * bits) / 8 ≤ 200 ∧ bits / 8 ≤ (1600 - 2 * bits) / 8) →
    build bits padByte = none) ∧
  (∀ v : Variant, build (outBits v) (pad v) = some v)

/-- The variant table of R8 with the PARAM values of the spec's vectors. The SHA-3 rows rest on PAD_SHA3 = 0x06
(log 3). -/
def Obligations.VariantTableAndParam : Prop :=
  [0#3, 1#3, 2#3, 3#3, 4#3, 5#3, 6#3, 7#3].map
      (fun c => (rate (variantOfCode c), outBytes (variantOfCode c), pad (variantOfCode c),
        param (variantOfCode c))) =
    [(144, 28, 0x01#8, 0x00011C90#32), (136, 32, 0x01#8, 0x01012088#32),
     (104, 48, 0x01#8, 0x02013068#32), (72, 64, 0x01#8, 0x03014048#32),
     (144, 28, 0x06#8, 0x04061C90#32), (136, 32, 0x06#8, 0x05062088#32),
     (104, 48, 0x06#8, 0x06063068#32), (72, 64, 0x06#8, 0x07064048#32)] ∧
  ∀ v : Variant, variantOfCode (variantCode v) = v

/-- The fields of PARAM (R33) for every variant, and that `param_o` shows it in every state (R58). -/
def Obligations.ParamFields : Prop :=
  ∀ s : State,
    (s.paramO.extractLsb' 0 8).toNat = rate s.variant ∧
    (s.paramO.extractLsb' 8 8).toNat = outBytes s.variant ∧
    s.paramO.extractLsb' 16 8 = pad s.variant ∧
    s.paramO.extractLsb' 24 3 = variantCode s.variant ∧
    s.paramO.extractLsb' 27 5 = 0#5

/-- The fields of STATUS, its value at reset, and that nothing the host does writes it (R32). That applying `rst` leaves
it as it is until the next step, the reset itself, is the model's choice (log 6); R264 has STATUS 0 after `rst`. The
buffer bound of `Inv` keeps BUFSZ inside its 8 bits. -/
def Obligations.StatusFields : Prop :=
  (∀ s : State, s.Inv →
    (s.status.extractLsb' 0 2).toNat =
      (match s.phase with | .absorbing => 0 | .finalized => 1 | .fault => 2) ∧
    s.status.extractLsb' 2 6 = 0#6 ∧
    (s.status.extractLsb' 8 8).toNat = s.bufsz ∧
    (s.status.extractLsb' 16 4).toNat =
      (match s.err with | .none => 0 | .illegalCmd => 1 | .useAfterFinal => 2) ∧
    s.status.extractLsb' 20 12 = 0#12) ∧
  (∀ v : Variant, (State.resetOf v).status = 0#32) ∧
  (∀ (s : State) (bytes : List Byte) (taking : Taking),
    (s.hostSend bytes).status = s.status ∧ (s.hostWilling taking).status = s.status ∧
    (s.hostRst bytes).status = s.status)

/-- `status_o` carries STATUS exactly when no command is in progress (R58, R265; U2 gives no value in between).
That a command is in progress while digest bytes wait or a payload is awaited follows R56, R57. -/
def Obligations.StatusPortOnlyBetweenCommands : Prop :=
  ∀ s : State, (s.pending = none ∧ s.digest = [] → s.statusO = some s.status) ∧
    (¬ (s.pending = none ∧ s.digest = []) → s.statusO = none)

/-! ## Reset -/

/-- The state right after reset is fresh (R36, R37), STATUS is 0 and the block takes commands. -/
def Obligations.ResetIsFresh : Prop :=
  State.reset.Fresh ∧ State.reset.status = 0#32 ∧ State.reset.bufsz = 0 ∧ State.reset.Accepting ∧
    ∀ v : Variant, (State.resetOf v).Fresh ∧ (State.resetOf v).Accepting ∧ (State.resetOf v).variant = v

/-- `rst` in any phase and at any point makes the block fresh, abandons the command in progress, drops the digest
bytes not taken, and the next byte taken is the first of a command word (R260). That the stream is what the host
leaves there is log 6. -/
def Obligations.RstMakesTheBlockFresh : Prop :=
  ∀ (s : State) (stream : List Byte), s.rst = some stream →
    ∃ t, step s = .next t ∧ t.Fresh ∧ t.Accepting ∧ t.status = 0#32 ∧ t.paramO = s.paramO ∧
      t.cmd = stream ∧ t.received = s.received ∧ t.taking = s.taking ∧ t.variant = s.variant

/-! ## Invariants -/

/-- The invariant holds right after reset, in every variant. -/
def Obligations.InvariantHoldsAtReset : Prop :=
  State.reset.Inv ∧ ∀ v : Variant, (State.resetOf v).Inv

/-- Every step keeps the invariant: BUFSZ below RATE, BUF empty in FINALIZED, ERR 0 exactly outside FAULT, a waiting
UPDATE only in ABSORBING, waiting digest bytes only in FINALIZED (R25 to R27, R136, R166). -/
def Obligations.StepKeepsTheInvariant : Prop :=
  ∀ s t : State, s.Inv → step s = .next t → t.Inv

/-- What the host may do between steps (R264) keeps the invariant. -/
def Obligations.HostMovesKeepTheInvariant : Prop :=
  ∀ s : State, s.Inv →
    (∀ bytes : List Byte, (s.hostSend bytes).Inv) ∧
    (∀ taking : Taking, (s.hostWilling taking).Inv) ∧
    (∀ stream : List Byte, (s.hostRst stream).Inv)

/-- A step never stops: waiting is no fault, a fault of the block is a next state (R222, R267; log 10), and every
command answers in every state. -/
def Obligations.EveryStepAnswers : Prop :=
  (∀ s : State, ∃ t, step s = .next t) ∧ ∀ (i : Instr) (s : State), ∃ t, exec i s = .next t

/-- No step changes the variant or PARAM (R2, R5, R33). -/
def Obligations.VariantNeverChanges : Prop :=
  ∀ s t : State, step s = .next t → t.variant = s.variant ∧ t.paramO = s.paramO

/-! ## The sponge state and the primitives -/

/-- R52: state byte k is byte k mod 8 of lane k div 8; writing it sets those 8 bits of that lane and no others. -/
def Obligations.StateByteLayout : Prop :=
  ∀ (S : Sponge) (k : Nat) (b : Byte), k < 200 →
    stateByte S k = (lane S (k / 8)).extractLsb' (8 * (k % 8)) 8 ∧
    (∀ j, j < 200 → stateByte (setStateByte S k b) j = if j = k then b else stateByte S j) ∧
    (∀ j, j < 25 → j ≠ k / 8 → lane (setStateByte S k b) j = lane S j) ∧
    stateByte S 0 = (lane S 0).extractLsb' 0 8 ∧
    stateByte S 9 = (lane S 1).extractLsb' 8 8 ∧
    stateByte S 135 = (lane S 16).extractLsb' 56 8

/-- R53: `Bytes_LE(S)` is the 200-byte string of the state bytes, and lane j is the sum of its 8 bytes times
256 to the i. -/
def Obligations.LaneIsTheSumOfItsBytes : Prop :=
  ∀ S : Sponge, (bytesLE S).length = 200 ∧
    (∀ k, k < 200 → (bytesLE S)[k]? = some (stateByte S k)) ∧
    (∀ j, j < 25 → (lane S j).toNat =
      ((List.range 8).map fun i => ((bytesLE S).getD (8 * j + i) 0#8).toNat * 2 ^ (8 * i)).sum)

/-- R54: Absorb of one block XORs block byte k into state byte k for k below RATE, leaves the capacity bytes
alone, and then permutes once, whatever the permutation. -/
def Obligations.AbsorbXorsOnlyRateBytes : Prop :=
  ∀ (P : Sponge → Sponge) (r : Nat) (S : Sponge) (block : List Byte),
    1 ≤ r → r ≤ 200 → block.length = r →
    ∃ X : Sponge, absorb P r S block = (P X, 0) ∧
      ∀ k, k < 200 → stateByte X k =
        if k < r then stateByte S k ^^^ block.getD k 0#8 else stateByte S k

/-- Absorb takes the whole blocks in order, permuting after each, and answers the count of the bytes left
(R101 to R103): `blocks` are the |data| div RATE whole blocks and `tail` the rest. -/
def Obligations.AbsorbFoldsOverWholeBlocks : Prop :=
  ∀ (P : Sponge → Sponge) (r : Nat) (S : Sponge) (blocks : List (List Byte)) (tail : List Byte),
    (∀ b ∈ blocks, b.length = r) → tail.length < r →
    absorb P r S (blocks.flatten ++ tail) =
      (blocks.foldl (fun X b => P (xorBlock X b)) S, tail.length)

/-- Squeeze (R105, R107): n bytes, byte i being byte i mod RATE of the state after i div RATE permutations, and
max(0, ceil(n / RATE) - 1) permutations in all, whatever the permutation. -/
def Obligations.SqueezeOutputsAndPermutations : Prop :=
  ∀ (P : Sponge → Sponge) (r n : Nat) (S : Sponge), 1 ≤ r → r ≤ 200 →
    (squeeze P r n S).1.length = n ∧
    (∀ i, i < n → (squeeze P r n S).1[i]? = some (stateByte (P^[i / r] S) (i % r))) ∧
    (squeeze P r n S).2 = P^[(n + r - 1) / r - 1] S

/-- R106: as FINALIZE uses it, the squeeze is one extraction from the front and does not permute. -/
def Obligations.DigestSqueezeDoesNotPermute : Prop :=
  ∀ (P : Sponge → Sponge) (v : Variant) (S : Sponge),
    squeeze P (rate v) (outBytes v) S = ((bytesLE S).take (outBytes v), S)

/-- The step mappings of Keccak-f[1600], lane by lane, and rotation bit by bit (R200, R201; general knowledge by
the spec's own mark, log 2). -/
def Obligations.KeccakStepMappings : Prop :=
  (∀ (v : Lane) (n z : Nat), n < 64 → z < 64 →
    (rot v n).getLsbD z = v.getLsbD ((z + (64 - n)) % 64)) ∧
  (∀ (A : Sponge) (rc : Lane) (x y : Nat), x < 5 → y < 5 →
    laneXY (theta A) x y = laneXY A x y ^^^
      ((laneXY A (x + 4) 0 ^^^ laneXY A (x + 4) 1 ^^^ laneXY A (x + 4) 2 ^^^ laneXY A (x + 4) 3 ^^^
          laneXY A (x + 4) 4) ^^^
        rot (laneXY A (x + 1) 0 ^^^ laneXY A (x + 1) 1 ^^^ laneXY A (x + 1) 2 ^^^ laneXY A (x + 1) 3 ^^^
          laneXY A (x + 1) 4) 1) ∧
    laneXY (rhoPi A) y (2 * x + 3 * y) = rot (laneXY A x y) (rotationOffset x y) ∧
    laneXY (chi A) x y = laneXY A x y ^^^ (~~~(laneXY A (x + 1) y) &&& laneXY A (x + 2) y) ∧
    laneXY (iota rc A) x y = (if x = 0 ∧ y = 0 then laneXY A x y ^^^ rc else laneXY A x y))

/-! ## UPDATE -/

/-- R131: UPDATE with LEN = 0 in ABSORBING takes no byte and changes no state. -/
def Obligations.UpdateOfNothingIsANoOp : Prop :=
  ∀ s : State, s.phase = .absorbing → exec (.update 0) s = .next s

/-- R132: with a pending buffer and a chunk smaller than the room in it, the chunk is appended and nothing is
absorbed; the new BUFSZ is at most RATE - 1. -/
def Obligations.UpdateBelowRoomAppends : Prop :=
  ∀ (s : State) (p rest : List Byte), s.phase = .absorbing → 0 < s.bufsz →
    p.length < rate s.variant - s.bufsz → s.cmd = p ++ rest →
    exec (.update p.length) s = .next { s with buf := s.buf ++ p, cmd := rest } ∧
    (s.buf ++ p).length = s.bufsz + p.length ∧ s.bufsz + p.length ≤ rate s.variant - 1

/-- R133, R134, R135: a chunk that fills the room completes a block, which is XORed in and permuted once; then the
whole blocks that remain are absorbed from the chunk and the last (n - c) mod RATE bytes are kept. With an empty
buffer the cursor c is 0. Everything else of the state is as it was, and the payload is taken. -/
def Obligations.UpdateAbsorbsBlocksAndKeepsTheTail : Prop :=
  (∀ (s : State) (p rest : List Byte), s.phase = .absorbing → 0 < s.bufsz → s.bufsz < rate s.variant →
    rate s.variant - s.bufsz ≤ p.length → s.cmd = p ++ rest →
    (s.buf ++ p.take (rate s.variant - s.bufsz)).length = rate s.variant ∧
    exec (.update p.length) s = .next { s with
      sponge := (absorb permute (rate s.variant)
        (permute (xorBlock s.sponge (s.buf ++ p.take (rate s.variant - s.bufsz))))
        (p.drop (rate s.variant - s.bufsz))).1
      buf := p.drop (p.length - (p.length - (rate s.variant - s.bufsz)) % rate s.variant)
      cmd := rest }) ∧
  (∀ (s : State) (p rest : List Byte), s.phase = .absorbing → s.buf = [] → s.cmd = p ++ rest →
    exec (.update p.length) s = .next { s with
      sponge := (absorb permute (rate s.variant) s.sponge p).1
      buf := p.drop (p.length - p.length % rate s.variant)
      cmd := rest })

/-- UPDATE waits while its payload is not all there: nothing of the block changes, further steps change nothing at
all, and when more bytes have come the step runs the same command on them (R56, R236; log 5). -/
def Obligations.UpdateWaitsForItsPayload : Prop :=
  ∀ (s : State) (len : Nat) (more : List Byte), s.Accepting → s.phase = .absorbing →
    s.cmd.length < len →
    ∃ t, exec (.update len) s = .next t ∧ t = { s with pending := some len } ∧
      step t = .next t ∧ step (t.hostSend more) = exec (.update len) (s.hostSend more)

/-- Frame of UPDATE in ABSORBING: the variant, PHASE, ERR, both digest streams and the inputs are unchanged; from the
command stream either exactly the LEN payload bytes are taken, or none and then S and BUF are unchanged (R130). -/
def Obligations.UpdateFrame : Prop :=
  ∀ (s t : State) (len : Nat), s.phase = .absorbing → exec (.update len) s = .next t →
    t.variant = s.variant ∧ t.phase = s.phase ∧ t.err = s.err ∧ t.digest = s.digest ∧
    t.received = s.received ∧ t.taking = s.taking ∧ t.rst = s.rst ∧ t.paramO = s.paramO ∧
    ((∃ taken, taken.length = len ∧ s.cmd = taken ++ t.cmd ∧ t.pending = s.pending) ∨
     (s.cmd.length < len ∧ t.cmd = s.cmd ∧ t.pending = some len ∧ t.sponge = s.sponge ∧ t.buf = s.buf))

/-- R136: after every UPDATE, BUFSZ is below RATE, whatever the length of its chunk and the phase. -/
def Obligations.UpdateKeepsBufszBelowRate : Prop :=
  ∀ (s t : State) (len : Nat), s.bufsz < rate s.variant →
    exec (.update len) s = .next t → t.bufsz < rate t.variant

/-- One UPDATE appends its chunk to the message the state stands for (R140): the whole blocks of the message are
absorbed from zero and the rest is in BUF. A fresh state stands for the empty message. -/
def Obligations.UpdateAppendsToTheMessage : Prop :=
  (∀ s : State, s.Fresh → s.Represents []) ∧
  (∀ (s : State) (m p rest : List Byte), s.Represents m → s.cmd = p ++ rest →
    ∃ t, exec (.update p.length) s = .next t ∧ t.Represents (m ++ p) ∧ t.cmd = rest ∧
      t.variant = s.variant ∧ t.received = s.received ∧ t.digest = s.digest)

/-- R141: the state after a sequence of UPDATE commands on the command stream depends only on the message, not on how
it is split into chunks; UPDATEs with LEN = 0 among them change nothing. -/
def Obligations.ChunkingDoesNotMatter : Prop :=
  ∀ (s : State) (chunks1 chunks2 : List (List Byte)) (rest : List Byte),
    s.Accepting → s.phase = .absorbing → s.bufsz < rate s.variant →
    (∀ c ∈ chunks1, c.length < 2 ^ 24) → (∀ c ∈ chunks2, c.length < 2 ^ 24) →
    chunks1.flatten = chunks2.flatten →
    ∃ t,
      runSteps chunks1.length { s with cmd := chunks1.flatMap updateBytes ++ rest } = .next t ∧
      runSteps chunks2.length { s with cmd := chunks2.flatMap updateBytes ++ rest } = .next t ∧
      t.cmd = rest ∧ t.Accepting

/-- UPDATE never reads PAD or OUT_BYTES: in a block with the same RATE it does the same (R138). -/
def Obligations.UpdateReadsOnlyTheRate : Prop :=
  ∀ (s t : State) (len : Nat) (v : Variant), rate v = rate s.variant →
    exec (.update len) s = .next t → exec (.update len) { s with variant := v } = .next { t with variant := v }

/-! ## FINALIZE -/

/-- R161, R162: BUF is filled up with zeros to RATE bytes and PAD is written at index BUFSZ. The last byte of the final
block also carries the end mark 0x80 of R163, ORed onto PAD where both fall on it. -/
def Obligations.FinalBlockContents : Prop :=
  ∀ (r : Nat) (p : Byte) (buf : List Byte), buf.length < r →
    (∀ k, k < buf.length → (zeroFill r buf)[k]? = buf[k]?) ∧
    (∀ k, buf.length ≤ k → k < r → (zeroFill r buf)[k]? = some 0x00#8) ∧
    (finalBlock r p buf).length = r ∧
    (∀ k, k < buf.length → (finalBlock r p buf)[k]? = buf[k]?) ∧
    (buf.length < r - 1 → (finalBlock r p buf)[buf.length]? = some p) ∧
    (∀ k, buf.length < k → k < r - 1 → (finalBlock r p buf)[k]? = some 0x00#8) ∧
    (buf.length < r - 1 → (finalBlock r p buf)[r - 1]? = some 0x80#8) ∧
    (buf.length = r - 1 → (finalBlock r p buf)[r - 1]? = some (p ||| 0x80#8))

/-- R165: FINALIZE absorbs the final block and then puts exactly OUT_BYTES bytes on the digest stream, digest byte i being
state byte i after the absorption. It leaves PHASE FINALIZED, BUF empty, ERR 0 and S after that absorption (R166).
`received ++ digest` is all that has ever been put on the digest stream, taken by the host or not. -/
def Obligations.FinalizeResult : Prop :=
  ∀ s : State, s.Inv → s.phase = .absorbing →
    ∃ t d, exec .finalize s = .next t ∧
      t.sponge = permute (xorBlock s.sponge (finalBlock (rate s.variant) (pad s.variant) s.buf)) ∧
      d.length = outBytes s.variant ∧
      (∀ i, i < outBytes s.variant → d[i]? = some (stateByte t.sponge i)) ∧
      t.received ++ t.digest = s.received ++ s.digest ++ d ∧
      t.phase = .finalized ∧ t.buf = [] ∧ t.bufsz = 0 ∧ t.err = .none

/-- Frame of FINALIZE in ABSORBING: the variant, ERR, the command stream, the command in progress and `rst` are
unchanged, and no byte the host had taken or was offered is lost or reordered (R160). -/
def Obligations.FinalizeFrame : Prop :=
  ∀ s t : State, s.phase = .absorbing → exec .finalize s = .next t →
    t.variant = s.variant ∧ t.err = s.err ∧ t.cmd = s.cmd ∧ t.pending = s.pending ∧ t.rst = s.rst ∧
    t.paramO = s.paramO ∧ s.received <+: t.received ∧
    (s.received ++ s.digest) <+: (t.received ++ t.digest) ∧
    (s.taking = .always → t.taking = .always)

/-- FINALIZE outputs the digest of the whole message: the first OUT_BYTES bytes of the state that absorbs `pad(m)` from
zero (R168). -/
def Obligations.FinalizeOutputsTheMessageDigest : Prop :=
  ∀ (s : State) (m : List Byte), s.Represents m → s.taking = .always → s.digest = [] →
    ∃ t, exec .finalize s = .next t ∧ t.received = s.received ++ messageDigest s.variant m ∧
      (messageDigest s.variant m).length = outBytes s.variant ∧ t.digest = [] ∧ t.phase = .finalized

/-! ## RESET -/

/-- R190: RESET in ABSORBING and in FINALIZED makes the block fresh; ERR stays 0 and the digest stream is not
written, nor is anything else. -/
def Obligations.ResetCommandMakesFresh : Prop :=
  ∀ s : State, s.Inv → s.phase ≠ .fault →
    ∃ t, exec .reset s = .next t ∧ t.Fresh ∧ t.status = 0#32 ∧
      t = { s with sponge := t.sponge, buf := t.buf, phase := t.phase }

/-- R191: RESET on a fresh instance changes nothing, RESET twice is the same as once, and in FAULT it is not
executed. -/
def Obligations.ResetCornerCases : Prop :=
  ∀ s : State,
    (s.Fresh → exec .reset s = .next s) ∧
    (∀ t, exec .reset s = .next t → exec .reset t = .next t) ∧
    (s.phase = .fault → exec .reset s = .next s)

/-- R192: RESET, UPDATE(m), FINALIZE on a used instance outputs the digest that a fresh instance outputs for m, and
after RESET the block is as after `rst`. Both as streams of command words and run from whatever state accepts
commands. -/
def Obligations.ResetThenHashIsAFreshHash : Prop :=
  (∀ (s : State) (m rest : List Byte), s.Inv → s.Accepting → s.taking = .always → m.length < 2 ^ 24 →
    s.cmd = encode .reset ++ updateBytes m ++ encode .finalize ++ rest →
    ∃ t, runSteps 3 s = .next t ∧ t.received = s.received ++ messageDigest s.variant m ∧
      t.cmd = rest ∧ t.phase = .finalized ∧ t.Accepting) ∧
  (∀ (s : State) (m rest : List Byte), s.Fresh → s.Accepting → s.taking = .always → m.length < 2 ^ 24 →
    s.cmd = updateBytes m ++ encode .finalize ++ rest →
    ∃ t, runSteps 2 s = .next t ∧ t.received = s.received ++ messageDigest s.variant m ∧
      t.cmd = rest ∧ t.phase = .finalized ∧ t.Accepting) ∧
  (∀ (s t u : State), s.Inv → s.Accepting → exec .reset s = .next t →
    step (s.hostRst s.cmd) = .next u → t = u)

/-! ## Faults -/

/-- R225: in FINALIZED an UPDATE word of any LEN, 0 too, and a FINALIZE word raise USE_AFTER_FINAL; the 4 bytes of the
word are taken, nothing else changes, and the payload bytes are never taken, however many steps follow. -/
def Obligations.UseAfterFinalFaults : Prop :=
  ∀ (s : State) (rest : List Byte), s.Accepting → s.phase = .finalized →
    (∀ len, len < 2 ^ 24 → s.cmd = encode (.update len) ++ rest →
      ∀ n, runSteps (n + 1) s = .next { s with cmd := rest, phase := .fault, err := .useAfterFinal }) ∧
    (s.cmd = encode .finalize ++ rest →
      ∀ n, runSteps (n + 1) s = .next { s with cmd := rest, phase := .fault, err := .useAfterFinal })

/-- R223: a fault is precise. The step that enters FAULT leaves S, BUF and BUFSZ as they were, writes no digest byte,
and STATUS then shows PHASE 2, the code and the unchanged BUFSZ. -/
def Obligations.FaultsArePrecise : Prop :=
  ∀ s t : State, s.Inv → s.phase ≠ .fault → step s = .next t → t.phase = .fault →
    t.sponge = s.sponge ∧ t.buf = s.buf ∧ t.digest = s.digest ∧ t.received = s.received ∧
    (t.status.extractLsb' 0 2).toNat = 2 ∧ (t.status.extractLsb' 8 8).toNat = s.bufsz ∧
    ((t.status.extractLsb' 16 4).toNat = 1 ∧ t.err = .illegalCmd ∨
     (t.status.extractLsb' 16 4).toNat = 2 ∧ t.err = .useAfterFinal)

/-- FAULT is quiescent and sticky (R226). While `rst` is not applied no step changes anything, however many steps are
made, so no byte is taken and STATUS keeps showing the fault; it is no good end of a run, and `rst` leaves it. That
`exec` of any command in FAULT answers the same state is the model's (log 11); no step gets there. -/
def Obligations.FaultIsSticky : Prop :=
  ∀ s : State, s.Inv → s.phase = .fault →
    ¬ s.GoodEnd ∧
    (s.rst = none → (∀ n, runSteps n s = .next s) ∧ (∀ i, exec i s = .next s)) ∧
    (∀ stream, ∃ t, step (s.hostRst stream) = .next t ∧ t.phase = .absorbing ∧ t.err = .none)

/-- R28: the phase transition table, one clause per row; an UPDATE has its payload on the stream. -/
def Obligations.PhaseTransitions : Prop :=
  (∀ (s : State) (p rest : List Byte), s.Accepting → s.phase = .absorbing → p.length < 2 ^ 24 →
    s.cmd = updateBytes p ++ rest → ∃ t, step s = .next t ∧ t.phase = .absorbing ∧ t.pending = none) ∧
  (∀ (s : State) (rest : List Byte), s.Accepting → s.phase = .absorbing →
    s.cmd = encode .finalize ++ rest → ∃ t, step s = .next t ∧ t.phase = .finalized) ∧
  (∀ (s : State) (rest : List Byte), s.Inv → s.Accepting →
    s.cmd = encode .reset ++ rest → ∃ t, step s = .next t ∧ t.phase = .absorbing ∧ t.Fresh) ∧
  (∀ (s : State) (why : IllegalWord) (rest : List Byte), s.Accepting → decode s.cmd = .illegal why rest →
    ∃ t, step s = .next t ∧ t.phase = .fault ∧ errCode t.err = 1#4) ∧
  (∀ (s : State) (i : Instr) (rest : List Byte), s.Accepting → s.phase = .finalized → i ≠ .reset →
    decode s.cmd = .command i rest →
    ∃ t, step s = .next t ∧ t.phase = .fault ∧ errCode t.err = 2#4) ∧
  (∀ s : State, s.Inv → s.phase = .fault → s.rst = none →
    ∃ t, step s = .next t ∧ t.phase = .fault ∧ t.cmd = s.cmd) ∧
  (∀ (s : State) (stream : List Byte), s.rst = some stream →
    ∃ t, step s = .next t ∧ t.phase = .absorbing ∧ t.Fresh)

/-! ## The step -/

/-- A step runs the decoded command: when the block takes the next word and the stream decodes to the well-formed
command i, the step is `exec i` with the word's bytes taken (R63, R75). -/
def Obligations.StepRunsTheDecodedCommand : Prop :=
  ∀ (s : State) (i : Instr) (rest : List Byte), s.Accepting → i.wellFormed = true →
    s.cmd = encode i ++ rest → step s = exec i { s with cmd := rest }

/-- An UPDATE whose word is taken goes on with the next step (R56; log 5). -/
def Obligations.StepResumesTheWaitingUpdate : Prop :=
  ∀ (s : State) (len : Nat), s.rst = none → s.digest = [] → s.phase ≠ .fault → s.pending = some len →
    step s = exec (.update len) { s with pending := none }

/-- With fewer than 4 bytes there the decoder waits and the block holds its state unchanged (R56, R75, R236). -/
def Obligations.StepWaitsForACommandWord : Prop :=
  ∀ s : State, s.Accepting → s.cmd.length < 4 → step s = .next s

/-- While digest bytes wait for the host no command byte is taken and the block's own state does not change; the host
gets its bytes in order, and a host that takes all of them ends the wait (R57, R236; log 7). -/
def Obligations.NoCommandWhileDigestBytesWait : Prop :=
  ∀ s : State, s.rst = none → s.digest ≠ [] →
    ∃ t, step s = .next t ∧ t.cmd = s.cmd ∧ t.sponge = s.sponge ∧ t.buf = s.buf ∧ t.phase = s.phase ∧
      t.err = s.err ∧ t.pending = s.pending ∧ t.received ++ t.digest = s.received ++ s.digest ∧
      s.received <+: t.received ∧ (s.taking = .always → t.digest = [])

/-- A command completes in one step once its bytes are there and the host takes every digest byte (R269), and the
next command word follows at once (R268): any command in ABSORBING, and RESET in FINALIZED too. -/
def Obligations.CommandCompletesOnceItsBytesAreThere : Prop :=
  ∀ (s : State) (i : Instr) (payload rest : List Byte), s.Accepting → (s.phase = .absorbing ∨ i = .reset) →
    s.taking = .always → i.wellFormed = true → payload.length + 4 = commandLength i →
    s.cmd = encode i ++ payload ++ rest →
    ∃ t, step s = .next t ∧ t.Accepting ∧ t.cmd = rest

/-- A run that has ended stays as it is (R271): at a good end the block waits for the next word, and at a bad end it
takes nothing. -/
def Obligations.EndedRunsStayEnded : Prop :=
  (∀ s : State, s.GoodEnd → ∀ n, runSteps n s = .next s) ∧
  (∀ s : State, s.Inv → s.BadEnd → ∀ n, runSteps n s = .next s) ∧
  (∀ s : State, s.GoodEnd → ¬ s.BadEnd)

/-- Only FINALIZE writes the digest stream, exactly OUT_BYTES bytes each time, and its word stood next on the
command stream (R57). -/
def Obligations.OnlyFinalizeWritesTheDigestStream : Prop :=
  ∀ s t : State, s.Inv → s.rst = none → step s = .next t →
    t.received ++ t.digest = s.received ++ s.digest ∨
    (s.phase = .absorbing ∧ t.phase = .finalized ∧ s.cmd = encode .finalize ++ t.cmd ∧
      ∃ d, d.length = outBytes s.variant ∧ t.received ++ t.digest = s.received ++ s.digest ++ d)

/-- The command stream is read once, in order: a step takes bytes from its front only, at most one command's, and
puts none back (R56, R62, R66). -/
def Obligations.CommandStreamIsReadOnce : Prop :=
  ∀ s t : State, s.Inv → s.rst = none → step s = .next t →
    ∃ taken, s.cmd = taken ++ t.cmd ∧ taken.length ≤ 4 + 16777215

/-- S and the contents of BUF are hidden (R35): two states that differ in nothing else step to states that agree in
everything the host sees but the digest bytes themselves, and in those too unless a FINALIZE ran. -/
def Obligations.HiddenStateShowsOnlyInDigests : Prop :=
  ∀ (s t : State) (S : Sponge) (buf : List Byte), s.Inv → buf.length = s.bufsz → step s = .next t →
    ∃ u, step { s with sponge := S, buf := buf } = .next u ∧
      u.statusO = t.statusO ∧ u.status = t.status ∧ u.paramO = t.paramO ∧ u.cmd = t.cmd ∧
      u.pending = t.pending ∧ u.taking = t.taking ∧ u.phase = t.phase ∧ u.err = t.err ∧
      u.digest.length = t.digest.length ∧ u.received.length = t.received.length ∧
      (t.phase = s.phase → u.digest = t.digest ∧ u.received = t.received)

/-! ## Assembly -/

/-- The payloads of `UPDATE_LONG` (R79): UPDATE commands of at most 16777215 bytes each, in order, covering the
payload; that there is at least one is log 15. -/
def Obligations.UpdateLongCoversThePayload : Prop :=
  ∀ data : List Byte, (longPieces data).flatten = data ∧ (∀ p ∈ longPieces data, p.length ≤ 16777215) ∧
    longPieces data ≠ []

/-- What the other lines of R78 and R79 stand for: `NOP` is the word 0x00000001, `HASH` is RESET, UPDATE and FINALIZE,
`.word` is its own 4 bytes. -/
def Obligations.AssemblyLinesExpand : Prop :=
  assemble .nop = some (bytesOfWord 0x00000001#32) ∧
  assemble .finalize = some (bytesOfWord 0x00000002#32) ∧
  assemble .reset = some (bytesOfWord 0x00000003#32) ∧
  (∀ w : CmdWord, assemble (.word w) = some (bytesOfWord w)) ∧
  (∀ p : Payload, (payloadOf p).length ≤ 16777215 →
    assemble (.update p) = some (encode (.update (payloadOf p).length) ++ payloadOf p) ∧
    assemble (.hash p) = some (encode .reset ++ (encode (.update (payloadOf p).length) ++ payloadOf p) ++
      encode .finalize))
end

