-- ==== Sys2Proof/Laws/Datapath.lean ====
section
/-! SUPPORT. Lanes and bytes of the sponge state, and the absorb and squeeze primitives over any permutation. -/

namespace Sys2Proof.Machine

/-! ## Lanes -/

theorem lane_eq_getElem (S : Sponge) {j : Nat} (h : j < 25) : lane S j = S[j] := by
  simp [lane, List.getD_eq_getElem?_getD, h]

/-- A state is its 25 lanes. -/
theorem sponge_ext {S T : Sponge} (h : ∀ j, j < 25 → lane S j = lane T j) : S = T := by
  apply Vector.ext
  intro j hj
  rw [← lane_eq_getElem S hj, ← lane_eq_getElem T hj]
  exact h j hj

theorem lane_setLane (S : Sponge) (i : Nat) (v : Lane) {j : Nat} (h : j < 25) :
    lane (setLane S i v) j = if i = j then v else lane S j := by
  rw [lane_eq_getElem _ h, lane_eq_getElem _ h, setLane, Vector.getElem_setIfInBounds]

theorem lane_tabulate (f : Nat → Lane) {j : Nat} (h : j < 25) : lane (tabulate f) j = f j := by
  interval_cases j <;> rfl

theorem lane_zeroSponge (j : Nat) : lane zeroSponge j = 0#64 := by
  by_cases h : j < 25
  · rw [lane_eq_getElem _ h]; simp [zeroSponge]
  · simp [lane, zeroSponge, List.getD_eq_getElem?_getD, h]

theorem laneXY_tabulateXY (f : Nat → Nat → Lane) (x y : Nat) :
    laneXY (tabulateXY f) x y = f (x % 5) (y % 5) := by
  have hx : x % 5 < 5 := Nat.mod_lt _ (by decide)
  have hy : y % 5 < 5 := Nat.mod_lt _ (by decide)
  rw [laneXY, tabulateXY, lane_tabulate _ (by omega)]
  congr 1 <;> omega

/-! ## Bytes of a lane -/

/-- Writing byte `i` of a lane writes that byte and no other. -/
theorem laneByte_setLaneByte (v : Lane) (b : Byte) {i k : Nat} (hi : i < 8) (hk : k < 8) :
    laneByte (setLaneByte v i b) k = if i = k then b else laneByte v k := by
  apply BitVec.eq_of_getLsbD_eq
  intro z hz
  interval_cases i <;> interval_cases k <;> interval_cases z <;>
    simp [laneByte, setLaneByte]

/-- A lane is its 8 bytes. -/
theorem lane_ext_bytes {v w : Lane} (h : ∀ i, i < 8 → laneByte v i = laneByte w i) : v = w := by
  apply BitVec.eq_of_getLsbD_eq
  intro z hz
  have hb := congrArg (fun b : Byte => b.getLsbD (z % 8)) (h (z / 8) (by omega))
  have hz8 : z % 8 < 8 := Nat.mod_lt _ (by decide)
  have hsum : 8 * (z / 8) + z % 8 = z := Nat.div_add_mod z 8
  simpa [laneByte, BitVec.getLsbD_extractLsb', hz8, hsum] using hb

/-- Writing one state byte, seen byte by byte. -/
theorem stateByte_setStateByte (S : Sponge) (b : Byte) (i : Nat) {k : Nat} (hk : k < 200) :
    stateByte (setStateByte S i b) k = if i = k then b else stateByte S k := by
  have hi8 : i % 8 < 8 := Nat.mod_lt _ (by decide)
  have hk8 : k % 8 < 8 := Nat.mod_lt _ (by decide)
  rw [stateByte, setStateByte, lane_setLane _ _ _ (by omega)]
  by_cases hd : i / 8 = k / 8
  · rw [if_pos hd, laneByte_setLaneByte _ _ hi8 hk8, stateByte, hd]
    by_cases hm : i % 8 = k % 8
    · rw [if_pos hm, if_pos (by omega)]
    · rw [if_neg hm, if_neg (by omega)]
  · rw [if_neg hd, if_neg (by rintro rfl; exact hd rfl), stateByte]

/-- A state is its 200 bytes. -/
theorem sponge_ext_bytes {S T : Sponge} (h : ∀ k, k < 200 → stateByte S k = stateByte T k) :
    S = T := by
  apply sponge_ext
  intro j hj
  apply lane_ext_bytes
  intro i _
  have := h (8 * j + i) (by omega)
  rwa [stateByte, stateByte, show (8 * j + i) / 8 = j by omega,
    show (8 * j + i) % 8 = i by omega] at this

@[simp] theorem length_bytesLE (S : Sponge) : (bytesLE S).length = 200 := by simp [bytesLE]

theorem getElem?_bytesLE (S : Sponge) {k : Nat} (h : k < 200) :
    (bytesLE S)[k]? = some (stateByte S k) := by
  simp [bytesLE, h]

/-! ## XOR of a block -/

/-- XOR of bytes from state byte `i` on, seen byte by byte. -/
theorem stateByte_xorBytes (bs : List Byte) (S : Sponge) (i : Nat) (hlen : i + bs.length ≤ 200)
    {k : Nat} (hk : k < 200) :
    stateByte (xorBytes S i bs) k =
      if i ≤ k ∧ k < i + bs.length then stateByte S k ^^^ bs.getD (k - i) 0#8 else stateByte S k := by
  induction bs generalizing S i with
  | nil => simp [xorBytes]
  | cons b bs ih =>
    simp only [List.length_cons] at hlen ⊢
    rw [xorBytes, ih _ _ (by omega), stateByte_setStateByte _ _ _ hk]
    by_cases hik : i = k
    · subst hik
      simp
    · rw [if_neg hik]
      by_cases hr : i + 1 ≤ k ∧ k < i + 1 + bs.length
      · rw [if_pos hr, if_pos (by omega), show k - i = (k - (i + 1)) + 1 by omega, List.getD_cons_succ]
      · rw [if_neg hr, if_neg (by omega)]

/-! ## Absorb -/

/-- Too little for a block: nothing is absorbed. -/
theorem absorb_short (P : Sponge → Sponge) (r : Nat) (S : Sponge) {data : List Byte}
    (h : data.length < r) : absorb P r S data = (S, data.length) := by
  unfold absorb
  cases hn : data.length with
  | zero => simp [absorbLoop, hn]
  | succ n => rw [absorbLoop, if_neg (by omega), hn]

/-- Any two numbers of turns that are enough give the same. -/
theorem absorbLoop_fuel (P : Sponge → Sponge) {r : Nat} (hr : 1 ≤ r) (n : Nat) :
    ∀ (m : Nat) (S : Sponge) (data : List Byte), data.length ≤ n → data.length ≤ m →
      absorbLoop P r n S data = absorbLoop P r m S data := by
  induction n with
  | zero =>
    intro m S data hn _
    have h0 : data.length = 0 := by omega
    cases m with
    | zero => rfl
    | succ m => rw [absorbLoop, absorbLoop, if_neg (by omega)]
  | succ n ih =>
    intro m S data hn hm
    cases m with
    | zero =>
      rw [absorbLoop, absorbLoop, if_neg (by omega)]
    | succ m =>
      rw [absorbLoop, absorbLoop]
      split
      · exact ih m _ _ (by simp only [List.length_drop]; omega)
          (by simp only [List.length_drop]; omega)
      · rfl

/-- A whole block in front: it is absorbed, the state is permuted, and the rest follows. -/
theorem absorb_block (P : Sponge → Sponge) {r : Nat} (hr : 1 ≤ r) (S : Sponge)
    {block : List Byte} (hb : block.length = r) (data : List Byte) :
    absorb P r S (block ++ data) = absorb P r (P (xorBlock S block)) data := by
  obtain ⟨n, hn⟩ : ∃ n, (block ++ data).length = n + 1 :=
    ⟨(block ++ data).length - 1, by simp only [List.length_append]; omega⟩
  rw [absorb, hn, absorbLoop, if_pos (by simp only [List.length_append]; omega), absorb]
  rw [List.take_left' hb, List.drop_left' hb]
  exact absorbLoop_fuel P hr _ _ _ _ (by simp only [List.length_append] at hn; omega) le_rfl

/-- Absorb leaves `|data| mod r` bytes. -/
theorem absorb_left (P : Sponge → Sponge) {r : Nat} (hr : 1 ≤ r) (n : Nat) :
    ∀ (S : Sponge) (data : List Byte), data.length = n → (absorb P r S data).2 = n % r := by
  induction n using Nat.strong_induction_on with
  | _ n ih =>
    intro S data hn
    by_cases h : data.length < r
    · rw [absorb_short P r S h, hn, Nat.mod_eq_of_lt (by omega)]
    · have hsplit : data = data.take r ++ data.drop r := (List.take_append_drop r data).symm
      rw [hsplit, absorb_block P hr S (by simp only [List.length_take]; omega),
        ih (n - r) (by omega) _ _ (by simp only [List.length_drop]; omega),
        ← Nat.mod_eq_sub_mod (by omega)]

/-- Absorbing whole blocks first and then more is absorbing both at once. -/
theorem absorb_append (P : Sponge → Sponge) {r : Nat} (hr : 1 ≤ r) (q : Nat) :
    ∀ (S : Sponge) (front data : List Byte), front.length = q * r →
      absorb P r S (front ++ data) = absorb P r (absorb P r S front).1 data := by
  induction q with
  | zero =>
    intro S front data h
    have : front = [] := List.length_eq_zero_iff.mp (by omega)
    subst this
    have hnil : absorb P r S [] = (S, 0) := absorb_short P r S (by simp only [List.length_nil]; omega)
    rw [hnil, List.nil_append]
  | succ q ih =>
    intro S front data h
    have hq : front.length = q * r + r := by rw [h, Nat.succ_mul]
    have hsplit : front = front.take r ++ front.drop r := (List.take_append_drop r front).symm
    have hlen : (front.take r).length = r := by simp only [List.length_take]; omega
    rw [hsplit, List.append_assoc, absorb_block P hr S hlen, absorb_block P hr S hlen]
    exact ih _ _ _ (by simp only [List.length_drop]; omega)

/-- The bytes left over take no part in the state. -/
theorem absorb_tail (P : Sponge → Sponge) {r : Nat} (hr : 1 ≤ r) {q : Nat} (S : Sponge)
    {front tail : List Byte} (hf : front.length = q * r) (ht : tail.length < r) :
    (absorb P r S (front ++ tail)).1 = (absorb P r S front).1 := by
  rw [absorb_append P hr q S front tail hf, absorb_short P r _ ht]

/-! ## Buffering -/

/-- What `absorbKeep` keeps: the last `|data| mod r` bytes. -/
theorem absorbKeep_eq (P : Sponge → Sponge) {r : Nat} (hr : 1 ≤ r) (S : Sponge) (data : List Byte) :
    absorbKeep P r S data = ((absorb P r S data).1, data.drop (data.length / r * r)) := by
  have h : data.length - data.length % r = data.length / r * r := by
    have := Nat.div_add_mod data.length r
    rw [Nat.mul_comm] at this
    omega
  rw [absorbKeep, absorb_left P hr data.length S data rfl, h]

/-- A whole block in front of what is absorbed and kept. -/
theorem absorbKeep_block (P : Sponge → Sponge) {r : Nat} (hr : 1 ≤ r) (S : Sponge)
    {block : List Byte} (hb : block.length = r) (tail : List Byte) :
    absorbKeep P r S (block ++ tail) = absorbKeep P r (absorb P r S block).1 tail := by
  have hlen : (block ++ tail).length = tail.length + r := by
    simp only [List.length_append]; omega
  rw [absorbKeep_eq P hr, absorbKeep_eq P hr, absorb_append P hr 1 S block tail (by omega), hlen,
    Nat.add_div_right _ (by omega), Nat.succ_mul, Nat.add_comm, ← List.drop_drop,
    List.drop_left' hb]

/-- The five steps of UPDATE together: they absorb the whole blocks of the buffer and the chunk taken as one
string, and keep the rest. -/
theorem absorbChunk_eq (P : Sponge → Sponge) {r : Nat} (S : Sponge) {buf : List Byte}
    (hb : buf.length < r) (data : List Byte) :
    absorbChunk P r S buf data = absorbKeep P r S (buf ++ data) := by
  have hr : 1 ≤ r := by omega
  rw [absorbChunk]
  split
  · next h0 =>
    have hnil : data = [] := List.length_eq_zero_iff.mp h0
    rw [absorbKeep_eq P hr, hnil, List.append_nil, absorb_short P r S hb, Nat.div_eq_of_lt hb,
      Nat.zero_mul, List.drop_zero]
  · split
    · split
      · next hlt =>
        have hlen : (buf ++ data).length < r := by simp only [List.length_append]; omega
        rw [absorbKeep_eq P hr, absorb_short P r S hlen, Nat.div_eq_of_lt hlen, Nat.zero_mul,
          List.drop_zero]
      · next hge =>
        have hsplit : buf ++ data = (buf ++ data.take (r - buf.length)) ++ data.drop (r - buf.length) := by
          rw [List.append_assoc, List.take_append_drop]
        have hblock : (buf ++ data.take (r - buf.length)).length = r := by
          simp only [List.length_append, List.length_take]; omega
        rw [hsplit, absorbKeep_block P hr S hblock]
    · next h0 =>
      have hnil : buf = [] := List.length_eq_zero_iff.mp (by omega)
      rw [hnil, List.nil_append]

/-! ## Squeeze -/

/-- Up to one block: the front bytes of the state, and no permutation (R106). -/
theorem squeeze_oneBlock (P : Sponge → Sponge) {r n : Nat} (hn : n ≤ r) (S : Sponge) :
    squeeze P r n S = ((bytesLE S).take n, S) := by
  cases n with
  | zero => rfl
  | succ n =>
    rw [squeeze, squeezeLoop, if_neg (by omega), Nat.min_eq_right hn, if_neg (by omega)]

end Sys2Proof.Machine
end

