-- ==== Sys2Proof/Laws/Params.lean ====
section
/-! SUPPORT. The bounds on the parameters of every variant (rules R7, R14). -/

namespace Sys2Proof.Machine

/-- Everything the commands use of the parameters: `RATE` is at least 72 and at most 144, and `OUT_BYTES`
is at least 28 and at most `RATE`. -/
theorem params_bounds (v : Variant) :
    72 ≤ rate v ∧ rate v ≤ 144 ∧ 28 ≤ outBytes v ∧ outBytes v ≤ rate v := by
  obtain ⟨z, p⟩ := v
  cases z <;> simp [rate, outBytes, rateOf, outBytesOf, outBits]

theorem rate_pos (v : Variant) : 1 ≤ rate v := by have := params_bounds v; omega

theorem rate_le_stateBytes (v : Variant) : rate v ≤ 200 := by have := params_bounds v; omega

theorem outBytes_le_rate (v : Variant) : outBytes v ≤ rate v := (params_bounds v).2.2.2

end Sys2Proof.Machine
end

