-- ==== Sys2Proof/Laws/State.lean ====
section
/-! SUPPORT. One lemma per field per named update of the state, and the equations of the streams. -/

namespace Sys2Proof.Machine

/-! ## Entering FAULT -/

@[simp] theorem State.raise_variant (s : State) (e : Err) : (s.raise e).variant = s.variant := rfl
@[simp] theorem State.raise_sponge (s : State) (e : Err) : (s.raise e).sponge = s.sponge := rfl
@[simp] theorem State.raise_buf (s : State) (e : Err) : (s.raise e).buf = s.buf := rfl
@[simp] theorem State.raise_phase (s : State) (e : Err) : (s.raise e).phase = .fault := rfl
@[simp] theorem State.raise_err (s : State) (e : Err) : (s.raise e).err = e := rfl
@[simp] theorem State.raise_pending (s : State) (e : Err) : (s.raise e).pending = s.pending := rfl
@[simp] theorem State.raise_cmd (s : State) (e : Err) : (s.raise e).cmd = s.cmd := rfl
@[simp] theorem State.raise_digest (s : State) (e : Err) : (s.raise e).digest = s.digest := rfl
@[simp] theorem State.raise_received (s : State) (e : Err) : (s.raise e).received = s.received := rfl
@[simp] theorem State.raise_taking (s : State) (e : Err) : (s.raise e).taking = s.taking := rfl
@[simp] theorem State.raise_rst (s : State) (e : Err) : (s.raise e).rst = s.rst := rfl

/-! ## The session made fresh -/

@[simp] theorem State.clearSession_variant (s : State) : s.clearSession.variant = s.variant := rfl
@[simp] theorem State.clearSession_sponge (s : State) : s.clearSession.sponge = zeroSponge := rfl
@[simp] theorem State.clearSession_buf (s : State) : s.clearSession.buf = [] := rfl
@[simp] theorem State.clearSession_phase (s : State) : s.clearSession.phase = .absorbing := rfl
@[simp] theorem State.clearSession_err (s : State) : s.clearSession.err = s.err := rfl
@[simp] theorem State.clearSession_pending (s : State) : s.clearSession.pending = s.pending := rfl
@[simp] theorem State.clearSession_cmd (s : State) : s.clearSession.cmd = s.cmd := rfl
@[simp] theorem State.clearSession_digest (s : State) : s.clearSession.digest = s.digest := rfl
@[simp] theorem State.clearSession_received (s : State) : s.clearSession.received = s.received := rfl
@[simp] theorem State.clearSession_taking (s : State) : s.clearSession.taking = s.taking := rfl
@[simp] theorem State.clearSession_rst (s : State) : s.clearSession.rst = s.rst := rfl

/-! ## The hardware reset -/

@[simp] theorem State.applyRst_variant (s : State) (b : List Byte) :
    (s.applyRst b).variant = s.variant := rfl
@[simp] theorem State.applyRst_sponge (s : State) (b : List Byte) :
    (s.applyRst b).sponge = zeroSponge := rfl
@[simp] theorem State.applyRst_buf (s : State) (b : List Byte) : (s.applyRst b).buf = [] := rfl
@[simp] theorem State.applyRst_phase (s : State) (b : List Byte) :
    (s.applyRst b).phase = .absorbing := rfl
@[simp] theorem State.applyRst_err (s : State) (b : List Byte) : (s.applyRst b).err = .none := rfl
@[simp] theorem State.applyRst_pending (s : State) (b : List Byte) :
    (s.applyRst b).pending = none := rfl
@[simp] theorem State.applyRst_cmd (s : State) (b : List Byte) : (s.applyRst b).cmd = b := rfl
@[simp] theorem State.applyRst_digest (s : State) (b : List Byte) : (s.applyRst b).digest = [] := rfl
@[simp] theorem State.applyRst_received (s : State) (b : List Byte) :
    (s.applyRst b).received = s.received := rfl
@[simp] theorem State.applyRst_taking (s : State) (b : List Byte) :
    (s.applyRst b).taking = s.taking := rfl
@[simp] theorem State.applyRst_rst (s : State) (b : List Byte) : (s.applyRst b).rst = none := rfl

/-! ## The host takes digest bytes -/

@[simp] theorem State.hostTake_variant (s : State) : s.hostTake.variant = s.variant := by
  unfold State.hostTake; split <;> rfl
@[simp] theorem State.hostTake_sponge (s : State) : s.hostTake.sponge = s.sponge := by
  unfold State.hostTake; split <;> rfl
@[simp] theorem State.hostTake_buf (s : State) : s.hostTake.buf = s.buf := by
  unfold State.hostTake; split <;> rfl
@[simp] theorem State.hostTake_phase (s : State) : s.hostTake.phase = s.phase := by
  unfold State.hostTake; split <;> rfl
@[simp] theorem State.hostTake_err (s : State) : s.hostTake.err = s.err := by
  unfold State.hostTake; split <;> rfl
@[simp] theorem State.hostTake_pending (s : State) : s.hostTake.pending = s.pending := by
  unfold State.hostTake; split <;> rfl
@[simp] theorem State.hostTake_cmd (s : State) : s.hostTake.cmd = s.cmd := by
  unfold State.hostTake; split <;> rfl
@[simp] theorem State.hostTake_rst (s : State) : s.hostTake.rst = s.rst := by
  unfold State.hostTake; split <;> rfl

/-- Taking moves bytes from the digest stream to the host, in order, and loses none. -/
theorem State.hostTake_observed (s : State) :
    s.hostTake.received ++ s.hostTake.digest = s.received ++ s.digest := by
  unfold State.hostTake
  split <;> simp

/-- What the host leaves on the digest stream is the end of what stood there. -/
theorem State.hostTake_digest_suffix (s : State) : s.hostTake.digest <:+ s.digest := by
  unfold State.hostTake
  split
  · simp
  · exact List.drop_suffix _ _

/-- A host that takes everything leaves nothing. -/
theorem State.hostTake_always {s : State} (h : s.taking = .always) :
    s.hostTake = { s with received := s.received ++ s.digest, digest := [] } := by
  unfold State.hostTake
  simp only [h]

/-! ## Output -/

@[simp] theorem State.outWrite_variant (s : State) (d : List Byte) :
    (s.outWrite d).variant = s.variant := by simp [State.outWrite]
@[simp] theorem State.outWrite_sponge (s : State) (d : List Byte) :
    (s.outWrite d).sponge = s.sponge := by simp [State.outWrite]
@[simp] theorem State.outWrite_buf (s : State) (d : List Byte) : (s.outWrite d).buf = s.buf := by
  simp [State.outWrite]
@[simp] theorem State.outWrite_phase (s : State) (d : List Byte) :
    (s.outWrite d).phase = s.phase := by simp [State.outWrite]
@[simp] theorem State.outWrite_err (s : State) (d : List Byte) : (s.outWrite d).err = s.err := by
  simp [State.outWrite]
@[simp] theorem State.outWrite_pending (s : State) (d : List Byte) :
    (s.outWrite d).pending = s.pending := by simp [State.outWrite]
@[simp] theorem State.outWrite_cmd (s : State) (d : List Byte) : (s.outWrite d).cmd = s.cmd := by
  simp [State.outWrite]
@[simp] theorem State.outWrite_rst (s : State) (d : List Byte) : (s.outWrite d).rst = s.rst := by
  simp [State.outWrite]

/-- `OutWrite(d)` adds exactly `d` to what the host sees, after all that came before. -/
theorem State.outWrite_observed (s : State) (d : List Byte) :
    (s.outWrite d).received ++ (s.outWrite d).digest = s.received ++ s.digest ++ d := by
  rw [State.outWrite, State.hostTake_observed, List.append_assoc]

/-- `OutWrite(d)` to a host that takes everything. -/
theorem State.outWrite_always {s : State} (h : s.taking = .always) (d : List Byte) :
    s.outWrite d = { s with received := s.received ++ (s.digest ++ d), digest := [] } :=
  State.hostTake_always h

/-- What the host has taken only grows, at its end. -/
theorem State.received_prefix_hostTake (s : State) : s.received <+: s.hostTake.received := by
  unfold State.hostTake
  split <;> exact List.prefix_append _ _

theorem State.received_prefix_outWrite (s : State) (d : List Byte) :
    s.received <+: (s.outWrite d).received :=
  State.received_prefix_hostTake { s with digest := s.digest ++ d }

theorem State.outWrite_digest_of_always {s : State} (h : s.taking = .always) (d : List Byte) :
    (s.outWrite d).digest = [] := by
  rw [State.outWrite_always h]

theorem State.outWrite_received_of_always {s : State} (h : s.taking = .always) (d : List Byte) :
    (s.outWrite d).received = s.received ++ (s.digest ++ d) := by
  rw [State.outWrite_always h]

theorem State.outWrite_taking_of_always {s : State} (h : s.taking = .always) (d : List Byte) :
    (s.outWrite d).taking = .always := by
  rw [State.outWrite_always h]
  exact h

/-! ## Input -/

/-- `InRead(n)` waits exactly while fewer than `n` bytes are there. -/
theorem State.inRead_eq_none {s : State} {n : Nat} : s.inRead n = none ↔ s.cmd.length < n := by
  unfold State.inRead
  split <;> simp_all

/-- `InRead(n)` takes the next `n` bytes and changes nothing else. -/
theorem State.inRead_append {s : State} {p rest : List Byte} (h : s.cmd = p ++ rest) :
    s.inRead p.length = some (p, { s with cmd := rest }) := by
  unfold State.inRead
  simp [h]

/-- Everything `InRead` can answer. -/
theorem State.inRead_cases {s t : State} {n : Nat} {data : List Byte}
    (h : s.inRead n = some (data, t)) :
    data.length = n ∧ s.cmd = data ++ t.cmd ∧ t = { s with cmd := t.cmd } := by
  unfold State.inRead at h
  split at h
  · cases h
  · simp only [Option.some.injEq, Prod.mk.injEq] at h
    obtain ⟨rfl, rfl⟩ := h
    refine ⟨?_, ?_, rfl⟩
    · simp only [List.length_take]; omega
    · simp

/-! ## The host's moves -/

@[simp] theorem State.hostSend_cmd (s : State) (b : List Byte) : (s.hostSend b).cmd = s.cmd ++ b := rfl
@[simp] theorem State.hostSend_variant (s : State) (b : List Byte) :
    (s.hostSend b).variant = s.variant := rfl
@[simp] theorem State.hostSend_sponge (s : State) (b : List Byte) :
    (s.hostSend b).sponge = s.sponge := rfl
@[simp] theorem State.hostSend_buf (s : State) (b : List Byte) : (s.hostSend b).buf = s.buf := rfl
@[simp] theorem State.hostSend_phase (s : State) (b : List Byte) : (s.hostSend b).phase = s.phase := rfl
@[simp] theorem State.hostSend_err (s : State) (b : List Byte) : (s.hostSend b).err = s.err := rfl
@[simp] theorem State.hostSend_pending (s : State) (b : List Byte) :
    (s.hostSend b).pending = s.pending := rfl
@[simp] theorem State.hostSend_digest (s : State) (b : List Byte) :
    (s.hostSend b).digest = s.digest := rfl
@[simp] theorem State.hostSend_received (s : State) (b : List Byte) :
    (s.hostSend b).received = s.received := rfl
@[simp] theorem State.hostSend_taking (s : State) (b : List Byte) :
    (s.hostSend b).taking = s.taking := rfl
@[simp] theorem State.hostSend_rst (s : State) (b : List Byte) : (s.hostSend b).rst = s.rst := rfl

/-! ## The state right after reset -/

@[simp] theorem State.resetOf_variant (v : Variant) : (State.resetOf v).variant = v := rfl
@[simp] theorem State.resetOf_sponge (v : Variant) : (State.resetOf v).sponge = zeroSponge := rfl
@[simp] theorem State.resetOf_buf (v : Variant) : (State.resetOf v).buf = [] := rfl
@[simp] theorem State.resetOf_phase (v : Variant) : (State.resetOf v).phase = .absorbing := rfl
@[simp] theorem State.resetOf_err (v : Variant) : (State.resetOf v).err = .none := rfl
@[simp] theorem State.resetOf_pending (v : Variant) : (State.resetOf v).pending = none := rfl
@[simp] theorem State.resetOf_cmd (v : Variant) : (State.resetOf v).cmd = [] := rfl
@[simp] theorem State.resetOf_digest (v : Variant) : (State.resetOf v).digest = [] := rfl
@[simp] theorem State.resetOf_received (v : Variant) : (State.resetOf v).received = [] := rfl
@[simp] theorem State.resetOf_taking (v : Variant) : (State.resetOf v).taking = .always := rfl
@[simp] theorem State.resetOf_rst (v : Variant) : (State.resetOf v).rst = none := rfl

end Sys2Proof.Machine
end

