-- ==== Sys2Proof/Laws/Commands.lean ====
section
/-! SUPPORT. One equation per command and case: what each meaning answers. Later proofs cite these. -/

namespace Sys2Proof.Machine

/-- The three phases (R26). -/
theorem phase_cases (p : Phase) : p = .absorbing ∨ p = .finalized ∨ p = .fault := by
  cases p <;> simp

/-! ## UPDATE -/

theorem execUpdate_fault {s : State} (h : s.phase = .fault) (len : Nat) :
    execUpdate len s = .next s := by
  simp only [execUpdate, h]

theorem execUpdate_finalized {s : State} (h : s.phase = .finalized) (len : Nat) :
    execUpdate len s = .next (s.raise .useAfterFinal) := by
  simp only [execUpdate, h]

/-- The payload is not all there: the command is in progress and nothing is taken. -/
theorem execUpdate_waits {s : State} (h : s.phase = .absorbing) {len : Nat} (hc : s.cmd.length < len) :
    execUpdate len s = .next { s with pending := some len } := by
  simp only [execUpdate, h, State.inRead_eq_none.mpr hc]

/-- The payload is there: it is taken and buffered. -/
theorem execUpdate_chunk {s : State} (h : s.phase = .absorbing) {p rest : List Byte}
    (hc : s.cmd = p ++ rest) :
    execUpdate p.length s = .next { s with
      cmd := rest
      sponge := (absorbChunk permute (rate s.variant) s.sponge s.buf p).1
      buf := (absorbChunk permute (rate s.variant) s.sponge s.buf p).2 } := by
  simp only [execUpdate, h, State.inRead_append hc]

/-- The payload is there and the buffer is in bounds: the buffer and the payload together are absorbed and
kept. -/
theorem execUpdate_takes {s : State} (h : s.phase = .absorbing) (hb : s.bufsz < rate s.variant)
    {p rest : List Byte} (hc : s.cmd = p ++ rest) :
    execUpdate p.length s = .next { s with
      cmd := rest
      sponge := (absorbKeep permute (rate s.variant) s.sponge (s.buf ++ p)).1
      buf := (absorbKeep permute (rate s.variant) s.sponge (s.buf ++ p)).2 } := by
  rw [execUpdate_chunk h hc, absorbChunk_eq permute s.sponge hb p]

/-- BUFSZ after a chunk is absorbed and kept: the count of all bytes, modulo RATE (R135). -/
theorem length_absorbKeep (P : Sponge → Sponge) (v : Variant) (S : Sponge) (data : List Byte) :
    (absorbKeep P (rate v) S data).2.length = data.length % rate v := by
  rw [absorbKeep_eq P (rate_pos v)]
  have h := Nat.div_add_mod data.length (rate v)
  rw [Nat.mul_comm] at h
  simp only [List.length_drop]
  omega

theorem length_absorbChunk (P : Sponge → Sponge) (v : Variant) (S : Sponge) {buf : List Byte}
    (hb : buf.length < rate v) (data : List Byte) :
    (absorbChunk P (rate v) S buf data).2.length = (buf.length + data.length) % rate v := by
  rw [absorbChunk_eq P S hb, length_absorbKeep, List.length_append]

/-! ## FINALIZE -/

theorem execFinalize_fault {s : State} (h : s.phase = .fault) : execFinalize s = .next s := by
  simp only [execFinalize, h]

theorem execFinalize_finalized {s : State} (h : s.phase = .finalized) :
    execFinalize s = .next (s.raise .useAfterFinal) := by
  simp only [execFinalize, h]

theorem length_zeroFill {r : Nat} {buf : List Byte} (h : buf.length ≤ r) :
    (zeroFill r buf).length = r := by
  simp only [zeroFill, List.length_append, List.length_replicate]; omega

theorem length_finalBlock {r : Nat} {buf : List Byte} (p : Byte) (h : buf.length ≤ r) :
    (finalBlock r p buf).length = r := by
  simp only [finalBlock, markEnd, List.length_set, length_zeroFill h]

/-- The final block is one block: it is absorbed by one XOR and one permutation (R164). -/
theorem finalSponge_eq (P : Sponge → Sponge) (v : Variant) (S : Sponge) {buf : List Byte}
    (h : buf.length ≤ rate v) :
    finalSponge P v S buf = P (xorBlock S (finalBlock (rate v) (pad v) buf)) := by
  have hb := absorb_block P (rate_pos v) S (length_finalBlock (pad v) h) []
  rw [List.append_nil] at hb
  rw [finalSponge, hb, absorb_short P (rate v) _ (by have := rate_pos v; simp only [List.length_nil]; omega)]

/-- FINALIZE in ABSORBING: one absorption, one extraction, the digest on the digest stream. -/
theorem execFinalize_absorbing {s : State} (h : s.phase = .absorbing) :
    execFinalize s = .next (State.outWrite
      { s with
        sponge := finalSponge permute s.variant s.sponge s.buf
        buf := []
        phase := .finalized }
      ((bytesLE (finalSponge permute s.variant s.sponge s.buf)).take (outBytes s.variant))) := by
  simp only [execFinalize, h, squeeze_oneBlock permute (outBytes_le_rate s.variant)]

/-! ## RESET -/

theorem execReset_fault {s : State} (h : s.phase = .fault) : execReset s = .next s := by
  simp only [execReset, h]

theorem execReset_clears {s : State} (h : s.phase ≠ .fault) : execReset s = .next s.clearSession := by
  rcases phase_cases s.phase with hp | hp | hp
  · simp only [execReset, hp]
  · simp only [execReset, hp]
  · exact absurd hp h

/-! ## Every command -/

/-- In FAULT every command does nothing (R226). -/
theorem exec_of_fault {s : State} (h : s.phase = .fault) (i : Instr) : exec i s = .next s := by
  cases i with
  | update len => exact execUpdate_fault h len
  | finalize => exact execFinalize_fault h
  | reset => exact execReset_fault h

/-- Everything a command can do: nothing (FAULT), the entry of FAULT, a wait, or its own effect. -/
theorem exec_cases {i : Instr} {s t : State} (h : exec i s = .next t) :
    (s.phase = .fault ∧ t = s) ∨
    (s.phase = .finalized ∧ i ≠ .reset ∧ t = s.raise .useAfterFinal) ∨
    (s.phase ≠ .fault ∧ i = .reset ∧ t = s.clearSession) ∨
    (∃ len, i = .update len ∧ s.phase = .absorbing ∧ s.cmd.length < len ∧
      t = { s with pending := some len }) ∨
    (∃ p rest, i = .update p.length ∧ s.phase = .absorbing ∧ s.cmd = p ++ rest ∧
      t = { s with
        cmd := rest
        sponge := (absorbChunk permute (rate s.variant) s.sponge s.buf p).1
        buf := (absorbChunk permute (rate s.variant) s.sponge s.buf p).2 }) ∨
    (i = .finalize ∧ s.phase = .absorbing ∧
      t = State.outWrite
        { s with
          sponge := finalSponge permute s.variant s.sponge s.buf
          buf := []
          phase := .finalized }
        ((bytesLE (finalSponge permute s.variant s.sponge s.buf)).take (outBytes s.variant))) := by
  cases i with
  | update len =>
    rw [exec] at h
    rcases phase_cases s.phase with hp | hp | hp
    · by_cases hc : s.cmd.length < len
      · rw [execUpdate_waits hp hc] at h
        cases h
        exact .inr (.inr (.inr (.inl ⟨len, rfl, hp, hc, rfl⟩)))
      · have hlen : (s.cmd.take len).length = len := by simp only [List.length_take]; omega
        have hsplit : s.cmd = s.cmd.take len ++ s.cmd.drop len := (List.take_append_drop len _).symm
        have hrun := execUpdate_chunk hp hsplit
        rw [hlen] at hrun
        rw [hrun] at h
        cases h
        exact .inr (.inr (.inr (.inr (.inl
          ⟨s.cmd.take len, s.cmd.drop len, by rw [hlen], hp, hsplit, rfl⟩))))
    · rw [execUpdate_finalized hp] at h
      cases h
      exact .inr (.inl ⟨hp, by simp, rfl⟩)
    · rw [execUpdate_fault hp] at h
      cases h
      exact .inl ⟨hp, rfl⟩
  | finalize =>
    rw [exec] at h
    rcases phase_cases s.phase with hp | hp | hp
    · rw [execFinalize_absorbing hp] at h
      cases h
      exact .inr (.inr (.inr (.inr (.inr ⟨rfl, hp, rfl⟩))))
    · rw [execFinalize_finalized hp] at h
      cases h
      exact .inr (.inl ⟨hp, by simp, rfl⟩)
    · rw [execFinalize_fault hp] at h
      cases h
      exact .inl ⟨hp, rfl⟩
  | reset =>
    rw [exec] at h
    by_cases hp : s.phase = .fault
    · rw [execReset_fault hp] at h
      cases h
      exact .inl ⟨hp, rfl⟩
    · rw [execReset_clears hp] at h
      cases h
      exact .inr (.inr (.inl ⟨hp, rfl, rfl⟩))

end Sys2Proof.Machine
end

