-- ==== Sys2Proof/Laws/Decode.lean ====
section
/-! SUPPORT. Words, their bytes and their fields; the decoder's three answers. -/

namespace Sys2Proof

/-- The bytes of a word put together again. -/
theorem wordOfBytes_bytesOfWord (w : CmdWord) :
    wordOfBytes (w.extractLsb' 0 8) (w.extractLsb' 8 8) (w.extractLsb' 16 8) (w.extractLsb' 24 8) = w := by
  apply BitVec.eq_of_getLsbD_eq
  intro z hz
  interval_cases z <;> simp [wordOfBytes]

/-- The decoder at the 4 bytes of a word. -/
theorem decode_bytesOfWord (w : CmdWord) (rest : List Byte) :
    decode (bytesOfWord w ++ rest) =
      match decodeWord w with
      | .ok i => .command i rest
      | .error why => .illegal why rest := by
  cases h : decodeWord w <;>
    simp only [bytesOfWord, List.cons_append, List.nil_append, decode, wordOfBytes_bytesOfWord, h]

/-- The decoder waits exactly while fewer than 4 bytes are there. -/
theorem decode_eq_needMore {bs : List Byte} : decode bs = .needMore ↔ bs.length < 4 := by
  rcases bs with _ | ⟨b0, _ | ⟨b1, _ | ⟨b2, _ | ⟨b3, rest⟩⟩⟩⟩
  · simp [decode]
  · simp [decode]
  · simp [decode]
  · simp [decode]
  · simp only [decode, List.length_cons]
    constructor
    · intro h
      split at h <;> cases h
    · intro h
      omega

@[simp] theorem length_bytesOfWord (w : CmdWord) : (bytesOfWord w).length = 4 := rfl

@[simp] theorem length_encode (i : Instr) : (encode i).length = 4 := rfl

end Sys2Proof
end

