-- ==== Sys2Proof/Laws/Message.lean ====
section
/-! SUPPORT. A message as whole blocks and a rest (R140), and its padded form (R168). -/

namespace Sys2Proof.Machine

/-- The bytes outside the rest are the whole blocks. -/
theorem sub_mod_eq (n r : Nat) : n - n % r = n / r * r := by
  have h := Nat.div_add_mod n r
  rw [Nat.mul_comm] at h
  omega

theorem length_wholeBlocks (r : Nat) (m : List Byte) : (wholeBlocks r m).length = m.length / r * r := by
  simp only [wholeBlocks, List.length_take]
  exact Nat.min_eq_left (Nat.div_mul_le_self _ _)

theorem length_remainder (r : Nat) (m : List Byte) : (remainder r m).length = m.length % r := by
  have h := sub_mod_eq m.length r
  have hle := Nat.mod_le m.length r
  simp only [remainder, List.length_drop]
  omega

/-- A message is its whole blocks and then the rest. -/
theorem wholeBlocks_append_remainder (r : Nat) (m : List Byte) : wholeBlocks r m ++ remainder r m = m :=
  List.take_append_drop _ _

/-- The rest takes no part in what is absorbed. -/
theorem absorbFromZero_wholeBlocks (P : Sponge → Sponge) {r : Nat} (hr : 1 ≤ r) (m : List Byte) :
    absorbFromZero P r (wholeBlocks r m) = absorbFromZero P r m := by
  unfold absorbFromZero
  conv_rhs => rw [← wholeBlocks_append_remainder r m]
  rw [absorb_tail P hr _ (length_wholeBlocks r m)
    (by rw [length_remainder]; exact Nat.mod_lt _ hr)]

/-- `pad(m)` is the whole blocks of the message and then the final block FINALIZE makes of the rest. -/
theorem padMessage_eq {r : Nat} (hr : 1 ≤ r) (p : Byte) (m : List Byte) :
    padMessage r p m = wholeBlocks r m ++ finalBlock r p (remainder r m) := by
  have hlt := Nat.mod_lt m.length hr
  have hts := sub_mod_eq m.length r
  have hle := Nat.mod_le m.length r
  have hrl := length_remainder r m
  have hwl := length_wholeBlocks r m
  have e1 : (zeroFill r (remainder r m)).set (remainder r m).length p =
      remainder r m ++ p :: List.replicate (r - m.length % r - 1) 0#8 := by
    unfold zeroFill
    rw [List.set_append_right _ _ (le_refl _), Nat.sub_self, hrl]
    obtain ⟨k, hk⟩ : ∃ k, r - m.length % r = k + 1 := ⟨r - m.length % r - 1, by omega⟩
    rw [hk, List.replicate_succ, List.set_cons_zero]
    rfl
  have e2 : m ++ p :: List.replicate (r - m.length % r - 1) 0#8 =
      wholeBlocks r m ++ (remainder r m ++ p :: List.replicate (r - m.length % r - 1) 0#8) := by
    rw [← List.append_assoc, wholeBlocks_append_remainder]
  unfold padMessage finalBlock
  rw [e1, e2]
  unfold markEnd
  have e3 : m.length + (r - m.length % r) - 1 = (wholeBlocks r m).length + (r - 1) := by
    rw [hwl]
    omega
  rw [e3, List.set_append_right _ _ (by omega), Nat.add_sub_cancel_left,
    List.getD_append_right _ _ _ _ (by omega), Nat.add_sub_cancel_left]

end Sys2Proof.Machine
end

