-- ==== Sys2Proof/Laws/PerInstr.lean ====
section
/-! SUPPORT. Statements made for every command, one lemma per constructor. -/

namespace Sys2Proof.Laws.TableRow

/-- The match value of a command's row in spec/opcode_table.json. -/
def matchValue : Instr → CmdWord
  | .update _ => 0x00000001#32
  | .finalize => 0x00000002#32
  | .reset => 0x00000003#32

/-- The mask of a command's row in spec/opcode_table.json. -/
def mask : Instr → CmdWord
  | .update _ => 0x000000FF#32
  | .finalize => 0xFFFFFFFF#32
  | .reset => 0xFFFFFFFF#32

/-- The word of a command matches its row of the opcode table. -/
def Statement (i : Instr) : Prop := encodeWord i &&& mask i = matchValue i

theorem update (len : Nat) : Statement (.update len) := by
  unfold Statement
  apply BitVec.eq_of_getLsbD_eq
  intro z hz
  interval_cases z <;> simp [encodeWord, mask, matchValue]

theorem finalize : Statement .finalize := by
  unfold Statement; rfl

theorem reset : Statement .reset := by
  unfold Statement; rfl

end Sys2Proof.Laws.TableRow
end

