-- ==== Sys2Proof/Laws/Step.lean ====
section
/-! SUPPORT. What one step can do, said once. -/

namespace Sys2Proof.Machine

/-- In a phase that accepts commands: a wait for the word, an illegal word, a command, or an UPDATE that goes on. -/
theorem fetchCommand_cases (s : State) :
    (s.pending = none ∧ s.cmd.length < 4 ∧ fetchCommand s = .settle s) ∨
    (∃ why rest, s.pending = none ∧ decode s.cmd = .illegal why rest ∧
      fetchCommand s = .settle (State.raise { s with cmd := rest } .illegalCmd)) ∨
    (∃ i rest, s.pending = none ∧ decode s.cmd = .command i rest ∧
      fetchCommand s = .run i { s with cmd := rest }) ∨
    (∃ len, s.pending = some len ∧
      fetchCommand s = .run (.update len) { s with pending := none }) := by
  cases hp : s.pending with
  | some len => exact .inr (.inr (.inr ⟨len, rfl, by simp only [fetchCommand, hp]⟩))
  | none =>
    cases hd : decode s.cmd with
    | needMore =>
      exact .inl ⟨rfl, decode_eq_needMore.mp hd, by simp only [fetchCommand, hp, fetchWord, hd]⟩
    | illegal why rest =>
      exact .inr (.inl ⟨why, rest, rfl, rfl, by simp only [fetchCommand, hp, fetchWord, hd]⟩)
    | command i rest =>
      exact .inr (.inr (.inl ⟨i, rest, rfl, rfl, by simp only [fetchCommand, hp, fetchWord, hd]⟩))

/-- The order in which a step looks. -/
theorem fetch_cases (s : State) :
    (∃ stream, s.rst = some stream ∧ fetch s = .settle (s.applyRst stream)) ∨
    (s.rst = none ∧ s.digest ≠ [] ∧ fetch s = .settle s.hostTake) ∨
    (s.rst = none ∧ s.digest = [] ∧ s.phase = .fault ∧ fetch s = .settle s) ∨
    (s.rst = none ∧ s.digest = [] ∧ s.phase ≠ .fault ∧ fetch s = fetchCommand s) := by
  cases hr : s.rst with
  | some stream => exact .inl ⟨stream, rfl, by simp only [fetch, hr]⟩
  | none =>
    cases hd : s.digest with
    | cons b more => exact .inr (.inl ⟨rfl, by simp, by simp only [fetch, hr, hd]⟩)
    | nil =>
      rcases phase_cases s.phase with hp | hp | hp
      · exact .inr (.inr (.inr ⟨rfl, rfl, by simp [hp], by simp only [fetch, hr, hd, hp]⟩))
      · exact .inr (.inr (.inr ⟨rfl, rfl, by simp [hp], by simp only [fetch, hr, hd, hp]⟩))
      · exact .inr (.inr (.inl ⟨rfl, rfl, hp, by simp only [fetch, hr, hd, hp]⟩))

theorem step_of_settle {s t : State} (h : fetch s = .settle t) : step s = .next t := by
  rw [step, h]

theorem step_of_run {s t : State} {i : Instr} (h : fetch s = .run i t) : step s = exec i t := by
  rw [step, h]

/-- `rst` comes first. -/
theorem step_of_rst {s : State} {stream : List Byte} (h : s.rst = some stream) :
    step s = .next (s.applyRst stream) :=
  step_of_settle (by simp only [fetch, h])

/-- Then the digest bytes the host has not taken. -/
theorem step_of_digest {s : State} (hr : s.rst = none) (hd : s.digest ≠ []) :
    step s = .next s.hostTake := by
  apply step_of_settle
  cases hb : s.digest with
  | nil => exact absurd hb hd
  | cons b more => simp only [fetch, hr, hb]

/-- Then FAULT. -/
theorem step_of_fault {s : State} (hr : s.rst = none) (hd : s.digest = []) (hp : s.phase = .fault) :
    step s = .next s :=
  step_of_settle (by simp only [fetch, hr, hd, hp])

/-- Then the command in progress or the next word. -/
theorem fetch_of_accepting {s : State} (hr : s.rst = none) (hd : s.digest = []) (hp : s.phase ≠ .fault) :
    fetch s = fetchCommand s := by
  rcases phase_cases s.phase with h | h | h
  · simp only [fetch, hr, hd, h]
  · simp only [fetch, hr, hd, h]
  · exact absurd h hp

/-- Everything one step can do: the hardware reset, a hand-over of digest bytes, nothing in FAULT, a wait for
a command word, an illegal word, or a command. -/
theorem step_cases {s t : State} (h : step s = .next t) :
    (∃ stream, s.rst = some stream ∧ t = s.applyRst stream) ∨
    (s.rst = none ∧ s.digest ≠ [] ∧ t = s.hostTake) ∨
    (s.rst = none ∧ s.digest = [] ∧ s.phase = .fault ∧ t = s) ∨
    (s.rst = none ∧ s.digest = [] ∧ s.phase ≠ .fault ∧ s.pending = none ∧ s.cmd.length < 4 ∧ t = s) ∨
    (∃ why rest, s.rst = none ∧ s.digest = [] ∧ s.phase ≠ .fault ∧ s.pending = none ∧
      decode s.cmd = .illegal why rest ∧ t = State.raise { s with cmd := rest } .illegalCmd) ∨
    (∃ i rest, s.rst = none ∧ s.digest = [] ∧ s.phase ≠ .fault ∧ s.pending = none ∧
      decode s.cmd = .command i rest ∧ exec i { s with cmd := rest } = .next t) ∨
    (∃ len, s.rst = none ∧ s.digest = [] ∧ s.phase ≠ .fault ∧ s.pending = some len ∧
      exec (.update len) { s with pending := none } = .next t) := by
  rcases fetch_cases s with ⟨b, hr, hf⟩ | ⟨hr, hd, hf⟩ | ⟨hr, hd, hp, hf⟩ | ⟨hr, hd, hp, hf⟩
  · rw [step_of_settle hf] at h
    cases h
    exact .inl ⟨b, hr, rfl⟩
  · rw [step_of_settle hf] at h
    cases h
    exact .inr (.inl ⟨hr, hd, rfl⟩)
  · rw [step_of_settle hf] at h
    cases h
    exact .inr (.inr (.inl ⟨hr, hd, hp, rfl⟩))
  · rcases fetchCommand_cases s with ⟨hn, hc, hg⟩ | ⟨why, rest, hn, hw, hg⟩ | ⟨i, rest, hn, hw, hg⟩ |
      ⟨len, hl, hg⟩
    · rw [step_of_settle (hf.trans hg)] at h
      cases h
      exact .inr (.inr (.inr (.inl ⟨hr, hd, hp, hn, hc, rfl⟩)))
    · rw [step_of_settle (hf.trans hg)] at h
      cases h
      exact .inr (.inr (.inr (.inr (.inl ⟨why, rest, hr, hd, hp, hn, hw, rfl⟩))))
    · rw [step_of_run (hf.trans hg)] at h
      exact .inr (.inr (.inr (.inr (.inr (.inl ⟨i, rest, hr, hd, hp, hn, hw, h⟩)))))
    · rw [step_of_run (hf.trans hg)] at h
      exact .inr (.inr (.inr (.inr (.inr (.inr ⟨len, hr, hd, hp, hl, h⟩)))))

/-! ## Several steps -/

theorem runSteps_zero (s : State) : runSteps 0 s = .next s := rfl

/-- The first step of a run. -/
theorem runSteps_succ {s t : State} (h : step s = .next t) (n : Nat) : runSteps (n + 1) s = runSteps n t := by
  rw [runSteps, h]

/-- A state a step does not change is never left. -/
theorem runSteps_of_fixed {s : State} (h : step s = .next s) (n : Nat) : runSteps n s = .next s := by
  induction n with
  | zero => rfl
  | succ n ih => rw [runSteps_succ h, ih]

end Sys2Proof.Machine
end

