-- ==== Sys2Proof/Tests/Slice0.lean ====
section
/-! SUPPORT. Tests of the model. The expected values are those of the spec's rules and vectors
(95_test_vectors.md), each named at its test; then, for every statement with hypotheses, a state and operands that
meet all of them together. -/

namespace Sys2Proof.Tests

open Sys2Proof Sys2Proof.Machine

/-! ## Well-formedness (R74) -/

theorem test_wellFormed_refuses_len_of_25_bits : (Instr.update 16777216).wellFormed = false := by decide

theorem test_wellFormed_accepts_largest_len : (Instr.update 16777215).wellFormed = true := by decide

/-! ## Decoding: the words bit by bit from R71 to R73 and opcode_table.json, bit 31 first -/

/-- `LLLLLLLL LLLLLLLL LLLLLLLL 00000001` with LEN = 3. -/
theorem test_update_word :
    decodeWord 0b00000000000000000000001100000001#32 = .ok (.update 3) := by decide

/-- LEN = 2 ^ 23, its highest bit alone. -/
theorem test_update_word_high_bit :
    decodeWord 0b10000000000000000000000000000001#32 = .ok (.update 8388608) := by decide

theorem test_finalize_word :
    decodeWord 0b00000000000000000000000000000010#32 = .ok .finalize := by decide

theorem test_reset_word :
    decodeWord 0b00000000000000000000000000000011#32 = .ok .reset := by decide

/-- The illegal words of "Command decoding" (R76). -/
theorem test_illegal_words :
    decodeWord 0x00000000#32 = .error .reservedOpcode ∧ decodeWord 0x00000004#32 = .error .reservedOpcode ∧
    decodeWord 0xFFFFFFFF#32 = .error .reservedOpcode ∧ decodeWord 0x00000102#32 = .error .reservedField ∧
    decodeWord 0x80000003#32 = .error .reservedField := by decide

/-- A stream that ends inside a word (R56). -/
theorem test_decoder_waits : decode [0x02#8, 0x00#8, 0x00#8] = .needMore := by decide

theorem test_table_word : decodeTableWord 32 0x00000301 = some (.update 3) := by decide

/-! ## The permutation (R204) -/

theorem test_permutation_of_zero_state : (permute zeroSponge).toList =
    [0xF1258F7940E1DDE7#64, 0x84D5CCF933C0478A#64, 0xD598261EA65AA9EE#64, 0xBD1547306F80494D#64,
      0x8B284E056253D057#64] ++
    [0xFF97A42D7F8E6FD4#64, 0x90FEE5A0A44647C4#64, 0x8C5BDA0CD6192E76#64, 0xAD30A6F71B19059C#64,
      0x30935AB7D08FFC64#64] ++
    [0xEB5AA93F2317D635#64, 0xA9A6E6260D712103#64, 0x81A57C16DBCF555F#64, 0x43B831CD0347C826#64,
      0x01F22F1A11A5569F#64] ++
    [0x05E5635A21D9AE61#64, 0x64BEFEF28CC970F2#64, 0x613670957BC46611#64, 0xB87C5A554FD00ECB#64,
      0x8C3EE88A1CCF32C8#64] ++
    [0x940C7922AE3A2614#64, 0x1841F924A2C509E4#64, 0x16F53526E70465C2#64, 0x75F644E97F30A13B#64,
      0xEAF1FF7B5CECA249#64] := by decide +kernel

/-! ## One step on a small state -/

/-- Keccak-256. -/
def keccak256 : Variant := ⟨.b256, .legacyKeccak⟩

/-- SHA3-256. -/
def sha3256 : Variant := ⟨.b256, .sha3⟩

/-- A block with that phase, buffer and command stream, otherwise as after `rst`. -/
def small (v : Variant) (phase : Phase) (buf cmd : List Byte) : State :=
  { State.resetOf v with phase := phase, buf := buf, cmd := cmd }

/-- The same in FAULT after USE_AFTER_FINAL. -/
def faulted (cmd : List Byte) : State :=
  { State.resetOf keccak256 with phase := .fault, err := .useAfterFinal, cmd := cmd }

/-- The ASCII bytes of "abc". -/
def abc : List Byte := [0x61#8, 0x62#8, 0x63#8]

/-- What a test looks at in an outcome. -/
def seen {α : Type} (f : State → α) : Host.Outcome State Fault Refusal → Option α
  | .next t => some (f t)
  | .fault _ => none
  | .refused _ => none

/-- `UPDATE "abc"` from fresh (R80, R132): STATUS shows BUFSZ 3. -/
theorem test_update_abc :
    seen (fun t => (t.status, t.buf, t.cmd)) (step (small keccak256 .absorbing [] ([0x01#8, 0x03#8, 0x00#8, 0x00#8] ++ abc ++ [0x02#8]))) =
      some (0x00000300#32, abc, [0x02#8]) := by decide

/-- V-UPD-4, its second UPDATE: 100 bytes on 100 leave BUFSZ 64. -/
theorem test_update_completes_a_block :
    seen (fun t => (t.bufsz, t.phase, t.cmd)) (execUpdate 100
      (small keccak256 .absorbing (List.replicate 100 0x00#8) (List.replicate 100 0x00#8))) =
      some (64, .absorbing, []) := by decide +kernel

/-- The digest of "abc" in SHA3-256. -/
theorem test_finalize_sha3256_abc :
    seen (fun t => t.received) (execFinalize (small sha3256 .absorbing abc [])) = some
      ([0x3a#8, 0x98#8, 0x5d#8, 0xa7#8, 0x4f#8, 0xe2#8, 0x25#8, 0xb2#8, 0x04#8, 0x5c#8, 0x17#8, 0x2d#8, 0x6b#8,
        0xd3#8, 0x90#8, 0xbd#8] ++
      [0x85#8, 0x5f#8, 0x08#8, 0x6e#8, 0x3e#8, 0x9d#8, 0x52#8, 0x5b#8, 0x46#8, 0xbf#8, 0xe2#8, 0x45#8, 0x11#8,
        0x43#8, 0x15#8, 0x32#8]) := by decide +kernel

/-- V-FLT-4: FINALIZE in FINALIZED; STATUS as in V-FLT-2, no digest byte. -/
theorem test_finalize_in_finalized :
    seen (fun t => (t.status, t.digest, t.received)) (execFinalize (small keccak256 .finalized [] [])) =
      some (0x00020002#32, [], []) := by decide

/-- V-RST-1. -/
theorem test_reset_in_absorbing :
    seen (fun t => (t.status, t.sponge, t.bufsz))
      (execReset { small keccak256 .absorbing (List.replicate 64 0x61#8) [] with
        sponge := Vector.replicate 25 0xFFFFFFFFFFFFFFFF#64 }) =
      some (0x00000000#32, zeroSponge, 0) := by decide

/-- V-RST-4: in FAULT the RESET word is not taken. -/
theorem test_reset_in_fault :
    seen (fun t => (t.status, t.cmd)) (step (faulted [0x03#8, 0x00#8, 0x00#8, 0x00#8])) =
      some (0x00020002#32, [0x03#8, 0x00#8, 0x00#8, 0x00#8]) := by decide

/-- V-FLT-6: an illegal word with BUFSZ 11. -/
theorem test_illegal_word_keeps_bufsz :
    seen (fun t => t.status) (step (small keccak256 .absorbing (List.replicate 11 0x61#8)
      [0x05#8, 0x00#8, 0x00#8, 0x00#8])) = some 0x00010B02#32 := by decide

/-- V-FIN-4, V-FIN-7: PAD and the end mark on one byte and on two. -/
theorem test_final_blocks :
    finalBlock 136 0x01#8 (List.replicate 135 0x61#8) = List.replicate 135 0x61#8 ++ [0x81#8] ∧
    finalBlock 72 0x01#8 (List.replicate 70 0x00#8) = List.replicate 70 0x00#8 ++ [0x01#8, 0x80#8] := by decide +kernel

/-- V-SQZ-5 in part: the first digest bytes are lane 0 from its low byte (R55). -/
theorem test_squeeze_order :
    (squeeze permute 72 9 (setLane zeroSponge 0 0x4FA945EA7A65034E#64)).1 =
      [0x4e#8, 0x03#8, 0x65#8, 0x7a#8, 0xea#8, 0x45#8, 0xa9#8, 0x4f#8, 0x00#8] := by decide

/-- PARAM of Keccak-256 and of SHA3-512. -/
theorem test_param :
    param keccak256 = 0x01012088#32 ∧ param ⟨.b512, .sha3⟩ = 0x07064048#32 := by decide

/-- A line of each form (R78, R79). -/
theorem test_assembly :
    assembleLine "UPDATE \"abc\"  # three bytes".toList = some ([0x01#8, 0x03#8, 0x00#8, 0x00#8] ++ abc) ∧
    assembleLine "UPDATE hex:616263".toList = some ([0x01#8, 0x03#8, 0x00#8, 0x00#8] ++ abc) ∧
    assembleLine "UPDATE fill:2x61".toList = some [0x01#8, 0x02#8, 0x00#8, 0x00#8, 0x61#8, 0x61#8] ∧
    assembleLine ".word 0x00000102".toList = some [0x02#8, 0x01#8, 0x00#8, 0x00#8] ∧
    assembleLine "HASH \"\"".toList = some ([0x03#8, 0x00#8, 0x00#8, 0x00#8] ++
      [0x01#8, 0x00#8, 0x00#8, 0x00#8] ++ [0x02#8, 0x00#8, 0x00#8, 0x00#8]) ∧
    assembleLine "FINALISE".toList = none := by decide +kernel

/-- The word placed by `withFetchWord` is the one the next step runs. -/
theorem test_withFetchWord :
    step (State.reset.withFetchWord 32 0x00000002) = exec .finalize State.reset ∧
    step (State.reset.withFetchWord 32 0x00000003) = exec .reset State.reset ∧
    step (State.reset.withFetchWord 32 0x00000001) = exec (.update 0) State.reset := ⟨rfl, rfl, rfl⟩

/-! ## Witnesses: the hypotheses of each statement met together -/

theorem small_accepting {v : Variant} {p : Phase} (buf cmd : List Byte) (h : p ≠ .fault) :
    (small v p buf cmd).Accepting := ⟨rfl, rfl, rfl, h⟩

theorem small_absorbing_inv {v : Variant} {buf : List Byte} (cmd : List Byte) (h : buf.length < rate v) :
    (small v .absorbing buf cmd).Inv :=
  ⟨h, nofun, ⟨fun _ => nofun, fun _ => rfl⟩, nofun, fun hd => absurd rfl hd⟩

theorem small_finalized_inv {v : Variant} (cmd : List Byte) : (small v .finalized [] cmd).Inv :=
  ⟨rate_pos v, fun _ => rfl, ⟨fun _ => nofun, fun _ => rfl⟩, nofun, fun hd => absurd rfl hd⟩

theorem faulted_inv (cmd : List Byte) : (faulted cmd).Inv :=
  ⟨show 0 < rate keccak256 by decide, nofun, ⟨nofun, fun h => absurd rfl h⟩, nofun, fun hd => absurd rfl hd⟩

theorem fresh_is_fresh (v : Variant) (cmd : List Byte) : (small v .absorbing [] cmd).Fresh :=
  ⟨rfl, fun j _ => lane_zeroSponge j, rfl, rfl⟩

theorem small_represents {v : Variant} {buf : List Byte} (cmd : List Byte) (h : buf.length < rate v) :
    (small v .absorbing buf cmd).Represents buf := by
  refine ⟨rfl, ?_, ?_⟩
  · show zeroSponge = absorbFromZero permute (rate v) (wholeBlocks (rate v) buf)
    rw [absorbFromZero_wholeBlocks permute (rate_pos v), absorbFromZero, absorb_short permute (rate v) _ h]
  · show buf = remainder (rate v) buf
    rw [remainder, Nat.div_eq_of_lt h, Nat.zero_mul, List.drop_zero]

theorem witness_DecodeOfEncodeIsTheCommand :
    (Instr.update 0).wellFormed = true ∧ (Instr.update 16777215).wellFormed = true ∧
    Instr.finalize.wellFormed = true ∧ Instr.reset.wellFormed = true := by decide

theorem witness_EncodeOfDecodeIsTheWord :
    decode ([0x01#8, 0x03#8, 0x00#8, 0x00#8] ++ abc) = .command (.update 3) abc := by decide

/-- What makes a word illegal, as the statement spells it (R76). -/
def illegalNumber (w : CmdWord) : Prop :=
  w.toNat % 256 = 0 ∨ 4 ≤ w.toNat % 256 ∨ ((w.toNat % 256 = 2 ∨ w.toNat % 256 = 3) ∧ w.toNat / 256 ≠ 0)

/-- The words at the edges of the legal ones: OPC 0x00 and 0x04 beside OPC 0x03, RSVD 1 beside RSVD 0. -/
theorem witness_WordRunsItsCommandOrRaisesIllegalCmd :
    illegalNumber 0x00000100#32 ∧ illegalNumber 0x00000004#32 ∧ illegalNumber 0x00000102#32 ∧
    ¬ illegalNumber 0xFFFFFF01#32 ∧ ¬ illegalNumber 0x00000002#32 ∧ ¬ illegalNumber 0x00000003#32 ∧
    ∀ w, (small keccak256 .finalized [] (bytesOfWord w ++ abc)).Accepting := by
  refine ⟨?_, ?_, ?_, ?_, ?_, ?_, fun w => small_accepting [] _ (by decide)⟩ <;> simp [illegalNumber]

theorem witness_LenIsTheUpper24Bits :
    (0x00000001#32).toNat % 256 = 1 ∧ (0xFFFFFF01#32).toNat % 256 = 1 := by decide

/-- 796 bits derive a RATE of 1, 800 bits one of 0. -/
theorem witness_OnlyValidConfigurationsAreBuilt :
    build 256 0x01#8 = some keccak256 ∧ build 512 0x06#8 = some ⟨.b512, .sha3⟩ ∧
    ¬ (1 ≤ (1600 - 2 * 800) / 8 ∧ (1600 - 2 * 800) / 8 ≤ 200 ∧ 800 / 8 ≤ (1600 - 2 * 800) / 8) ∧
    ¬ (1 ≤ (1600 - 2 * 796) / 8 ∧ (1600 - 2 * 796) / 8 ≤ 200 ∧ 796 / 8 ≤ (1600 - 2 * 796) / 8) := by decide

/-- The largest BUFSZ of all variants, and FAULT. -/
theorem witness_StatusFields :
    (small ⟨.b224, .sha3⟩ .absorbing (List.replicate 143 0x61#8) []).Inv ∧ (faulted []).Inv :=
  ⟨small_absorbing_inv [] (by decide +kernel), faulted_inv []⟩

/-- No command in progress; an UPDATE that waits; a digest byte that waits. -/
theorem witness_StatusPortOnlyBetweenCommands :
    (State.reset.pending = none ∧ State.reset.digest = []) ∧
    (let s : State := { State.reset with pending := some 1 }; ¬ (s.pending = none ∧ s.digest = [])) ∧
    (let s : State := { State.reset with digest := [0x00#8] }; ¬ (s.pending = none ∧ s.digest = [])) := by
  decide

/-- `rst` inside a payload, with an empty and with a new stream, and in FAULT. -/
theorem witness_RstMakesTheBlockFresh :
    (State.hostRst { State.reset with pending := some 7, cmd := abc } []).rst = some [] ∧
    ((faulted abc).hostRst [0x03#8]).rst = some [0x03#8] := by decide

/-- From FAULT, from a state that waits for a word, and through a FINALIZE. -/
theorem witness_StepKeepsTheInvariant :
    (∃ t, (faulted abc).Inv ∧ step (faulted abc) = .next t) ∧
    (∃ t, (small keccak256 .absorbing abc []).Inv ∧ step (small keccak256 .absorbing abc []) = .next t) ∧
    (∃ t, (small sha3256 .absorbing abc (encode .finalize)).Inv ∧
      step (small sha3256 .absorbing abc (encode .finalize)) = .next t) :=
  ⟨⟨_, faulted_inv abc, rfl⟩, ⟨_, small_absorbing_inv [] (by decide), rfl⟩,
    ⟨_, small_absorbing_inv _ (by decide), rfl⟩⟩

theorem witness_HostMovesKeepTheInvariant : (small keccak256 .absorbing abc []).Inv :=
  small_absorbing_inv [] (by decide)

theorem witness_VariantNeverChanges :
    ∃ t, step (small sha3256 .absorbing abc (encode .finalize)) = .next t := ⟨_, rfl⟩

theorem witness_StateByteLayout : (0 : Nat) < 200 ∧ 199 < 200 ∧ 24 < 25 ∧ 24 ≠ 0 / 8 := by decide

theorem witness_LaneIsTheSumOfItsBytes : (199 : Nat) < 200 ∧ 24 < 25 := by decide

theorem witness_AbsorbXorsOnlyRateBytes :
    (1 ≤ 1 ∧ 1 ≤ 200 ∧ [0x61#8].length = 1) ∧
    (1 ≤ 200 ∧ 200 ≤ 200 ∧ (List.replicate 200 0x61#8).length = 200) := by decide +kernel

/-- Two blocks with a rest, and no block with an empty rest. -/
theorem witness_AbsorbFoldsOverWholeBlocks :
    ((∀ b ∈ [[0x01#8, 0x02#8], [0x03#8, 0x04#8]], b.length = 2) ∧ [0x05#8].length < 2) ∧
    ((∀ b ∈ ([] : List (List Byte)), b.length = 136) ∧ ([] : List Byte).length < 136) := by decide

theorem witness_SqueezeOutputsAndPermutations : (1 ≤ 1 ∧ 1 ≤ 200) ∧ (1 ≤ 200 ∧ 200 ≤ 200) ∧ 0 < 137 := by
  decide

theorem witness_KeccakStepMappings : (0 : Nat) < 64 ∧ 63 < 64 ∧ 0 < 5 ∧ 4 < 5 := by decide

theorem witness_UpdateOfNothingIsANoOp : State.reset.phase = .absorbing := rfl

/-- V-UPD-14: 100 and 35, one byte below the room. -/
theorem witness_UpdateBelowRoomAppends :
    let s := small keccak256 .absorbing (List.replicate 100 0x61#8) (List.replicate 35 0x62#8 ++ abc);
    s.phase = .absorbing ∧ 0 < s.bufsz ∧ (List.replicate 35 0x62#8).length < rate s.variant - s.bufsz ∧
      s.cmd = List.replicate 35 0x62#8 ++ abc := by decide +kernel

/-- 100 and 36, exactly the room (R139); an empty buffer and exactly one block (V-UPD-5). -/
theorem witness_UpdateAbsorbsBlocksAndKeepsTheTail :
    (let s := small keccak256 .absorbing (List.replicate 100 0x61#8) (List.replicate 36 0x62#8 ++ abc);
      s.phase = .absorbing ∧ 0 < s.bufsz ∧ s.bufsz < rate s.variant ∧
        rate s.variant - s.bufsz ≤ (List.replicate 36 0x62#8).length ∧
        s.cmd = List.replicate 36 0x62#8 ++ abc) ∧
    (let s := small keccak256 .absorbing [] (List.replicate 136 0x61#8 ++ abc);
      s.phase = .absorbing ∧ s.buf = [] ∧ s.cmd = List.replicate 136 0x61#8 ++ abc) := by decide +kernel

/-- One byte short. -/
theorem witness_UpdateWaitsForItsPayload :
    let s := small keccak256 .absorbing [] abc;
    s.Accepting ∧ s.phase = .absorbing ∧ s.cmd.length < 4 := ⟨small_accepting _ _ (by decide), rfl, by decide⟩

/-- With the payload there, and one byte short. -/
theorem witness_UpdateFrame :
    let s := small keccak256 .absorbing [] abc;
    s.phase = .absorbing ∧ (∃ t, exec (.update 3) s = .next t ∧ t.cmd = []) ∧
      ∃ t, exec (.update 4) s = .next t ∧ t.pending = some 4 :=
  ⟨rfl, ⟨_, rfl, rfl⟩, _, rfl, rfl⟩

theorem witness_UpdateKeepsBufszBelowRate :
    let s := small keccak256 .absorbing (List.replicate 135 0x61#8) abc;
    s.bufsz < rate s.variant ∧ ∃ t, exec (.update 1) s = .next t := ⟨by decide +kernel, _, rfl⟩

theorem witness_UpdateAppendsToTheMessage :
    (small keccak256 .absorbing [] []).Fresh ∧
    (let s := small keccak256 .absorbing (List.replicate 135 0x61#8) (abc ++ abc);
      s.Represents (List.replicate 135 0x61#8) ∧ s.cmd = abc ++ abc) :=
  ⟨fresh_is_fresh _ _, small_represents _ (by decide +kernel), rfl⟩

/-- "abc" whole, and in pieces with an empty one (R141). -/
theorem witness_ChunkingDoesNotMatter :
    let s := small keccak256 .absorbing [] [];
    s.Accepting ∧ s.phase = .absorbing ∧ s.bufsz < rate s.variant ∧
      (∀ c ∈ [abc], c.length < 2 ^ 24) ∧ (∀ c ∈ [[0x61#8], [], [0x62#8, 0x63#8]], c.length < 2 ^ 24) ∧
      [abc].flatten = [[0x61#8], [], [0x62#8, 0x63#8]].flatten :=
  ⟨small_accepting _ _ (by decide), rfl, by decide, by decide, by decide, by decide⟩

theorem witness_UpdateReadsOnlyTheRate :
    let s := small keccak256 .absorbing [] abc;
    rate sha3256 = rate s.variant ∧ ∃ t, exec (.update 3) s = .next t := ⟨by decide, _, rfl⟩

/-- An empty buffer, one byte below the last, and RATE - 1 bytes. -/
theorem witness_FinalBlockContents :
    ([] : List Byte).length < 136 ∧ (List.replicate 134 0x61#8).length < 136 - 1 ∧
    ((List.replicate 135 0x61#8).length < 136 ∧ (List.replicate 135 0x61#8).length = 136 - 1) := by decide +kernel

theorem witness_FinalizeResult :
    let s := small keccak256 .absorbing (List.replicate 135 0x61#8) [];
    s.Inv ∧ s.phase = .absorbing := ⟨small_absorbing_inv _ (by decide +kernel), rfl⟩

theorem witness_FinalizeFrame :
    let s := small keccak256 .absorbing abc abc;
    s.phase = .absorbing ∧ ∃ t, exec .finalize s = .next t := ⟨rfl, _, rfl⟩

theorem witness_FinalizeOutputsTheMessageDigest :
    let s := small sha3256 .absorbing abc [];
    s.Represents abc ∧ s.taking = .always ∧ s.digest = [] := ⟨small_represents _ (by decide), rfl, rfl⟩

theorem witness_ResetCommandMakesFresh :
    ((small keccak256 .absorbing abc []).Inv ∧ (small keccak256 .absorbing abc []).phase ≠ .fault) ∧
    ((small keccak256 .finalized [] []).Inv ∧ (small keccak256 .finalized [] []).phase ≠ .fault) :=
  ⟨⟨small_absorbing_inv _ (by decide), by decide⟩, small_finalized_inv _, by decide⟩

theorem witness_ResetCornerCases :
    (small keccak256 .absorbing [] []).Fresh ∧
    (∃ t, exec .reset (small keccak256 .finalized [] []) = .next t) ∧ (faulted []).phase = .fault :=
  ⟨fresh_is_fresh _ _, ⟨_, rfl⟩, rfl⟩

/-- A used instance; a fresh one; RESET beside `rst`. -/
theorem witness_ResetThenHashIsAFreshHash :
    (let s := small keccak256 .finalized [] (encode .reset ++ updateBytes abc ++ encode .finalize ++ abc);
      s.Inv ∧ s.Accepting ∧ s.taking = .always ∧ abc.length < 2 ^ 24 ∧
        s.cmd = encode .reset ++ updateBytes abc ++ encode .finalize ++ abc) ∧
    (let s := small keccak256 .absorbing [] (updateBytes abc ++ encode .finalize ++ abc);
      s.Fresh ∧ s.Accepting ∧ s.taking = .always ∧ abc.length < 2 ^ 24 ∧
        s.cmd = updateBytes abc ++ encode .finalize ++ abc) ∧
    (let s := small keccak256 .absorbing abc [];
      s.Inv ∧ s.Accepting ∧ ∃ t u, exec .reset s = .next t ∧ step (s.hostRst s.cmd) = .next u) :=
  ⟨⟨small_finalized_inv _, small_accepting _ _ (by decide), rfl, by decide, rfl⟩,
    ⟨fresh_is_fresh _ _, small_accepting _ _ (by decide), rfl, by decide, rfl⟩,
    small_absorbing_inv _ (by decide), small_accepting _ _ (by decide), _, _, rfl, rfl⟩

/-- V-FLT-3 and V-FLT-2 (UPDATE of LEN 0 and 1) and V-FLT-4. -/
theorem witness_UseAfterFinalFaults :
    (∀ c, (small keccak256 .finalized [] c).Accepting ∧ (small keccak256 .finalized [] c).phase = .finalized) ∧
    0 < 2 ^ 24 ∧ 16777215 < 2 ^ 24 ∧
    (small keccak256 .finalized [] [0x01#8, 0x00#8, 0x00#8, 0x00#8, 0x78#8]).cmd = encode (.update 0) ++ [0x78#8] ∧
    (small keccak256 .finalized [] [0x01#8, 0x01#8, 0x00#8, 0x00#8, 0x78#8]).cmd = encode (.update 1) ++ [0x78#8] ∧
    (small keccak256 .finalized [] [0x02#8, 0x00#8, 0x00#8, 0x00#8]).cmd = encode .finalize ++ [] :=
  ⟨fun c => ⟨small_accepting _ _ (by decide), rfl⟩, by decide, by decide, by decide, by decide, by decide⟩

/-- V-FLT-6 and V-FLT-4. -/
theorem witness_FaultsArePrecise :
    (let s := small keccak256 .absorbing (List.replicate 11 0x61#8) [0x05#8, 0x00#8, 0x00#8, 0x00#8];
      s.Inv ∧ s.phase ≠ .fault ∧ ∃ t, step s = .next t ∧ t.phase = .fault) ∧
    (let s := small keccak256 .finalized [] (encode .finalize);
      s.Inv ∧ s.phase ≠ .fault ∧ ∃ t, step s = .next t ∧ t.phase = .fault) :=
  ⟨⟨small_absorbing_inv _ (by decide), by decide, _, rfl, rfl⟩, small_finalized_inv _, by decide, _, rfl, rfl⟩

/-- V-FLT-7. -/
theorem witness_FaultIsSticky :
    let s := faulted (encode .reset);
    s.Inv ∧ s.phase = .fault ∧ s.rst = none := ⟨faulted_inv _, rfl, rfl⟩

/-- One state for each row of the table. -/
theorem witness_PhaseTransitions :
    (let s := small keccak256 .absorbing abc (updateBytes abc ++ abc);
      s.Accepting ∧ s.phase = .absorbing ∧ abc.length < 2 ^ 24 ∧ s.cmd = updateBytes abc ++ abc) ∧
    (let s := small keccak256 .absorbing abc (encode .finalize ++ abc);
      s.Accepting ∧ s.phase = .absorbing ∧ s.cmd = encode .finalize ++ abc) ∧
    (let s := small keccak256 .finalized [] (encode .reset ++ abc);
      s.Inv ∧ s.Accepting ∧ s.cmd = encode .reset ++ abc) ∧
    (let s := small keccak256 .finalized [] [0x02#8, 0x01#8, 0x00#8, 0x00#8];
      s.Accepting ∧ decode s.cmd = .illegal .reservedField []) ∧
    (let s := small keccak256 .finalized [] (encode .finalize);
      s.Accepting ∧ s.phase = .finalized ∧ Instr.finalize ≠ .reset ∧ decode s.cmd = .command .finalize []) ∧
    ((faulted abc).Inv ∧ (faulted abc).phase = .fault ∧ (faulted abc).rst = none) ∧
    ((faulted abc).hostRst []).rst = some [] :=
  ⟨⟨small_accepting _ _ (by decide), rfl, by decide, rfl⟩, ⟨small_accepting _ _ (by decide), rfl, rfl⟩,
    ⟨small_finalized_inv _, small_accepting _ _ (by decide), rfl⟩,
    ⟨small_accepting _ _ (by decide), by decide⟩,
    ⟨small_accepting _ _ (by decide), rfl, by decide, by decide⟩, ⟨faulted_inv _, rfl, rfl⟩, rfl⟩

theorem witness_StepRunsTheDecodedCommand :
    let s := small keccak256 .absorbing [] (encode (.update 16777215) ++ abc);
    s.Accepting ∧ (Instr.update 16777215).wellFormed = true ∧ s.cmd = encode (.update 16777215) ++ abc :=
  ⟨small_accepting _ _ (by decide), by decide, rfl⟩

theorem witness_StepResumesTheWaitingUpdate :
    let s : State := { small keccak256 .absorbing [] abc with pending := some 3 };
    s.rst = none ∧ s.digest = [] ∧ s.phase ≠ .fault ∧ s.pending = some 3 := by decide

/-- Three of four bytes. -/
theorem witness_StepWaitsForACommandWord :
    let s := small keccak256 .finalized [] [0x02#8, 0x00#8, 0x00#8];
    s.Accepting ∧ s.cmd.length < 4 := ⟨small_accepting _ _ (by decide), by decide⟩

theorem witness_NoCommandWhileDigestBytesWait :
    let s : State := { small keccak256 .finalized [] abc with digest := [0x61#8] };
    s.rst = none ∧ s.digest ≠ [] ∧ s.taking = .always := by decide

/-- UPDATE and FINALIZE in ABSORBING, RESET in FINALIZED. -/
theorem witness_CommandCompletesOnceItsBytesAreThere :
    (let s := small keccak256 .absorbing [] (encode (.update 3) ++ abc ++ abc);
      s.Accepting ∧ (s.phase = .absorbing ∨ Instr.update 3 = .reset) ∧ s.taking = .always ∧
        (Instr.update 3).wellFormed = true ∧ abc.length + 4 = commandLength (.update 3) ∧
        s.cmd = encode (.update 3) ++ abc ++ abc) ∧
    (let s := small keccak256 .absorbing [] (encode .finalize ++ [] ++ abc);
      s.Accepting ∧ (s.phase = .absorbing ∨ Instr.finalize = .reset) ∧ s.taking = .always ∧
        Instr.finalize.wellFormed = true ∧ ([] : List Byte).length + 4 = commandLength .finalize ∧
        s.cmd = encode .finalize ++ [] ++ abc) ∧
    (let s := small keccak256 .finalized [] (encode .reset ++ [] ++ abc);
      s.Accepting ∧ (s.phase = .absorbing ∨ Instr.reset = .reset) ∧ s.taking = .always ∧
        Instr.reset.wellFormed = true ∧ ([] : List Byte).length + 4 = commandLength .reset ∧
        s.cmd = encode .reset ++ [] ++ abc) :=
  ⟨⟨small_accepting _ _ (by decide), .inl rfl, rfl, by decide, by decide, rfl⟩,
    ⟨small_accepting _ _ (by decide), .inl rfl, rfl, by decide, by decide, rfl⟩,
    small_accepting _ _ (by decide), .inr rfl, rfl, by decide, by decide, rfl⟩

theorem witness_EndedRunsStayEnded :
    (small keccak256 .finalized [] []).GoodEnd ∧ (faulted abc).Inv ∧ (faulted abc).BadEnd :=
  ⟨⟨small_accepting _ _ (by decide), rfl⟩, faulted_inv _, rfl, rfl⟩

/-- Through an UPDATE and through a FINALIZE. -/
theorem witness_OnlyFinalizeWritesTheDigestStream :
    (let s := small keccak256 .absorbing [] (updateBytes abc);
      s.Inv ∧ s.rst = none ∧ ∃ t, step s = .next t) ∧
    (let s := small keccak256 .absorbing [] (encode .finalize);
      s.Inv ∧ s.rst = none ∧ ∃ t, step s = .next t ∧ t.phase = .finalized) :=
  ⟨⟨small_absorbing_inv _ (by decide), rfl, _, rfl⟩, small_absorbing_inv _ (by decide), rfl, _, rfl, rfl⟩

theorem witness_CommandStreamIsReadOnce :
    let s := small keccak256 .absorbing [] (updateBytes abc ++ abc);
    s.Inv ∧ s.rst = none ∧ ∃ t, step s = .next t ∧ t.cmd = abc :=
  ⟨small_absorbing_inv _ (by decide), rfl, _, rfl, rfl⟩

/-- "abc" in BUF against three other bytes: a step that keeps the phase, and a FINALIZE. -/
theorem witness_HiddenStateShowsOnlyInDigests :
    (let s := small keccak256 .absorbing abc (updateBytes abc);
      s.Inv ∧ [0x00#8, 0x01#8, 0x02#8].length = s.bufsz ∧ ∃ t, step s = .next t ∧ t.phase = s.phase) ∧
    (let s := small keccak256 .absorbing abc (encode .finalize);
      s.Inv ∧ [0x00#8, 0x01#8, 0x02#8].length = s.bufsz ∧ ∃ t, step s = .next t) :=
  ⟨⟨small_absorbing_inv _ (by decide), rfl, _, rfl, rfl⟩, small_absorbing_inv _ (by decide), rfl, _, rfl⟩

theorem witness_AssemblyLinesExpand :
    (payloadOf (.text [])).length ≤ 16777215 ∧ (payloadOf (.hex abc)).length ≤ 16777215 := by decide

end Sys2Proof.Tests
end

/-! The variant: fixed when the block is built, kept by every step, and the parameters derived from it
(rules R2, R5 to R8, R33). -/

namespace Sys2Proof.Machine

/-! ## No step writes the variant -/

/-- A command keeps the variant, whatever it does. -/
theorem exec_keeps_variant {i : Instr} {s t : State} (h : exec i s = .next t) : t.variant = s.variant := by
  rcases exec_cases h with ⟨-, rfl⟩ | ⟨-, -, rfl⟩ | ⟨-, -, rfl⟩ | ⟨len, -, -, -, rfl⟩ |
    ⟨p, rest, -, -, -, rfl⟩ | ⟨-, -, rfl⟩
  · rfl
  · exact State.raise_variant _ _
  · exact State.clearSession_variant _
  · rfl
  · rfl
  · exact State.outWrite_variant _ _

/-- A step keeps the variant: what comes before a command writes only the session and the streams. -/
theorem step_keeps_variant {s t : State} (h : step s = .next t) : t.variant = s.variant := by
  rcases step_cases h with ⟨stream, -, rfl⟩ | ⟨-, -, rfl⟩ | ⟨-, -, -, rfl⟩ | ⟨-, -, -, -, -, rfl⟩ |
    ⟨why, rest, -, -, -, -, -, rfl⟩ | ⟨i, rest, -, -, -, -, -, hrun⟩ | ⟨len, -, -, -, -, hrun⟩
  · exact State.applyRst_variant _ _
  · exact State.hostTake_variant _
  · rfl
  · rfl
  · exact State.raise_variant _ _
  · exact (exec_keeps_variant hrun).trans rfl
  · exact (exec_keeps_variant hrun).trans rfl

/-! ## The output sizes and the paddings -/

/-- The four output sizes (R2). -/
theorem outBits_cases (v : Variant) :
    outBits v = 224 ∨ outBits v = 256 ∨ outBits v = 384 ∨ outBits v = 512 := by
  obtain ⟨z, p⟩ := v
  cases z <;> simp [outBits]

/-- A number of bits names a size exactly when it is the `OUT_BITS` of that size. -/
theorem sizeOfBits_eq_some_iff {bits : Nat} {z : OutSize} (p : Padding) :
    sizeOfBits bits = some z ↔ outBits ⟨z, p⟩ = bits := by
  constructor
  · intro h
    unfold sizeOfBits at h
    split_ifs at h with h224 h256 h384 h512
    · cases h; exact h224.symm
    · cases h; exact h256.symm
    · cases h; exact h384.symm
    · cases h; exact h512.symm
  · rintro rfl
    cases z <;> rfl

/-- A byte names a padding exactly when it is the `PAD` of that padding. -/
theorem paddingOfByte_eq_some_iff {b : Byte} {p : Padding} (z : OutSize) :
    paddingOfByte b = some p ↔ pad ⟨z, p⟩ = b := by
  constructor
  · intro h
    unfold paddingOfByte at h
    split_ifs at h with hLegacy hSha3
    · cases h; exact hLegacy.symm
    · cases h; exact hSha3.symm
  · rintro rfl
    cases p <;> rfl

/-! ## Building a block -/

theorem validConfig_iff {bits : Nat} :
    validConfig bits = true ↔ 1 ≤ rateOf bits ∧ rateOf bits ≤ 200 ∧ outBytesOf bits ≤ rateOf bits := by
  simp only [validConfig, Bool.and_eq_true, decide_eq_true_eq, and_assoc]

/-- Every variant passes the test of R7. -/
theorem validConfig_outBits (v : Variant) : validConfig (outBits v) = true :=
  validConfig_iff.mpr ⟨rate_pos v, rate_le_stateBytes v, outBytes_le_rate v⟩

/-- A configuration that fails the test of R7 is refused. -/
theorem build_of_not_valid {bits : Nat} (h : ¬ validConfig bits = true) (padByte : Byte) :
    build bits padByte = none := by
  rw [build, if_neg h]

/-- A block is built as `v` exactly from the `OUT_BITS` and the `PAD` of `v`. -/
theorem build_eq_some_iff {bits : Nat} {padByte : Byte} {v : Variant} :
    build bits padByte = some v ↔ outBits v = bits ∧ pad v = padByte := by
  obtain ⟨z, p⟩ := v
  constructor
  · intro h
    unfold build at h
    split at h
    · split at h
      next z' p' hz hp =>
        cases h
        exact ⟨(sizeOfBits_eq_some_iff p).mp hz, (paddingOfByte_eq_some_iff z).mp hp⟩
      next => cases h
    · cases h
  · rintro ⟨hb, hp⟩
    have hvalid : validConfig bits = true := hb ▸ validConfig_outBits ⟨z, p⟩
    simp only [build, hvalid, (sizeOfBits_eq_some_iff p).mpr hb, (paddingOfByte_eq_some_iff z).mpr hp, if_true]

/-! ## The `VARIANT` code -/

theorem sizeOfCode_sizeCode (z : OutSize) : sizeOfCode (sizeCode z) = z := by
  cases z <;> rfl

theorem paddingOfCode_paddingCode (p : Padding) : paddingOfCode (paddingCode p) = p := by
  cases p <;> rfl

/-- The low two bits of the code are the size (R8). -/
theorem variantCode_low (v : Variant) : (variantCode v).extractLsb' 0 2 = sizeCode v.size :=
  BitVec.extractLsb'_append_eq_right

/-- The top bit of the code is the padding (R8). -/
theorem variantCode_high (v : Variant) : (variantCode v).extractLsb' 2 1 = paddingCode v.padding :=
  BitVec.extractLsb'_append_eq_left

/-- The code of a variant selects that variant. -/
theorem variantOfCode_variantCode (v : Variant) : variantOfCode (variantCode v) = v := by
  rw [variantOfCode, variantCode_low, variantCode_high, sizeOfCode_sizeCode, paddingOfCode_paddingCode]

/-! ## The statements -/

/-- Settles O19: the variant is kept by every step, and PARAM is a function of it. -/
theorem variantNeverChanges : Obligations.VariantNeverChanges := by
  intro s t h
  have hv := step_keeps_variant h
  exact ⟨hv, congrArg param hv⟩

/-- Settles O7: the definitions of R6, exact at each of the four output sizes. -/
theorem rateAndOutBytesAreDerived : Obligations.RateAndOutBytesAreDerived := by
  refine ⟨fun v => ⟨rfl, rfl, ?_⟩, outBits_cases⟩
  rw [outBytes, rate, outBytesOf, rateOf]
  rcases outBits_cases v with h | h | h | h <;> simp [h]

/-- Settles O8: a block is built exactly from a variant's own size and padding, whose bounds are R7's. -/
theorem onlyValidConfigurationsAreBuilt : Obligations.OnlyValidConfigurationsAreBuilt := by
  refine ⟨fun bits padByte v h => ?_, fun bits padByte h => ?_, fun v => build_eq_some_iff.mpr ⟨rfl, rfl⟩⟩
  · obtain ⟨hb, hp⟩ := build_eq_some_iff.mp h
    exact ⟨hb, hp, rate_pos v, rate_le_stateBytes v, outBytes_le_rate v⟩
  · exact build_of_not_valid (mt validConfig_iff.mp h) padByte

/-- Settles O9: the eight rows computed, and the code read back field by field. -/
theorem variantTableAndParam : Obligations.VariantTableAndParam :=
  ⟨by decide, variantOfCode_variantCode⟩

end Sys2Proof.Machine

/-! The state: the values of its two side ports, the states reset leaves, what one step does to the invariant and to
the phase, and what of the session shows outside (rules R25 to R28, R32 to R37, R58). -/

namespace Sys2Proof

/-! ## Decoding a command -/

theorem wellFormed_update {len : Nat} : (Instr.update len).wellFormed = true ↔ len < 2 ^ 24 :=
  decide_eq_true_iff

theorem opcField_encodeWord_update (len : Nat) : opcField (encodeWord (.update len)) = 0x01#8 := by
  apply BitVec.eq_of_getLsbD_eq
  intro z hz
  interval_cases z <;> simp [opcField, encodeWord]

theorem restField_encodeWord_update (len : Nat) :
    restField (encodeWord (.update len)) = BitVec.ofNat 24 len := by
  apply BitVec.eq_of_getLsbD_eq
  intro z hz
  interval_cases z <;> simp [restField, encodeWord]

theorem decodeWord_encodeWord {i : Instr} (h : i.wellFormed = true) : decodeWord (encodeWord i) = .ok i := by
  cases i with
  | update len =>
    rw [decodeWord, if_pos (opcField_encodeWord_update len), restField_encodeWord_update, BitVec.toNat_ofNat,
      Nat.mod_eq_of_lt (wellFormed_update.mp h)]
  | finalize => rfl
  | reset => rfl

/-- The word of a command decodes to that command (R71 to R75). -/
theorem decode_encode {i : Instr} (h : i.wellFormed = true) (rest : List Byte) :
    decode (encode i ++ rest) = .command i rest := by
  rw [encode, decode_bytesOfWord, decodeWord_encodeWord h]

/-- The LEN of a decoded UPDATE is 24 bits of its word. -/
theorem wellFormed_of_decodeWord {w : CmdWord} {i : Instr} (h : decodeWord w = .ok i) : i.wellFormed = true := by
  unfold decodeWord at h
  split_ifs at h
  · cases h
    exact wellFormed_update.mpr (restField w).isLt
  · cases h
    rfl
  · cases h
    rfl

theorem wellFormed_of_decode {bs rest : List Byte} {i : Instr} (h : decode bs = .command i rest) :
    i.wellFormed = true := by
  unfold decode at h
  split at h
  · next b0 b1 b2 b3 _ =>
    cases hw : decodeWord (wordOfBytes b0 b1 b2 b3) with
    | ok j =>
      rw [hw] at h
      cases h
      exact wellFormed_of_decodeWord hw
    | error why =>
      rw [hw] at h
      cases h
  · cases h

/-! ## Fields of a port word -/

/-- A field read where it was put. -/
theorem extractLsb'_field_same {m k : Nat} (x : BitVec m) (h : k + m ≤ 32) :
    (x.setWidth 32 <<< k).extractLsb' k m = x := by
  apply BitVec.eq_of_getLsbD_eq
  intro z hz
  simp [hz, show k + z < 32 by omega]

/-- A field below the bits read. -/
theorem extractLsb'_field_below {m k start len : Nat} (x : BitVec m) (h : k + m ≤ start) :
    (x.setWidth 32 <<< k).extractLsb' start len = 0#len := by
  apply BitVec.eq_of_getLsbD_eq
  intro z hz
  simp [BitVec.getLsbD_extractLsb', BitVec.getLsbD_of_ge x _ (show m ≤ start + z - k by omega)]

/-- A field above the bits read. -/
theorem extractLsb'_field_above {m k start len : Nat} (x : BitVec m) (h : start + len ≤ k) :
    (x.setWidth 32 <<< k).extractLsb' start len = 0#len := by
  apply BitVec.eq_of_getLsbD_eq
  intro z hz
  simp [BitVec.getLsbD_extractLsb', show start + z < k by omega]

end Sys2Proof

namespace Sys2Proof.Machine

/-! ## STATUS and PARAM -/

/-- STATUS with its lowest field written as the others are. -/
theorem State.status_eq_or (s : State) :
    s.status = (errCode s.err).setWidth 32 <<< 16 ||| (BitVec.ofNat 8 s.bufsz).setWidth 32 <<< 8 |||
      (phaseCode s.phase).setWidth 32 <<< 0 := by
  rw [BitVec.shiftLeft_zero, State.status]

/-- The fields of STATUS (R32). -/
theorem State.status_fields (s : State) :
    s.status.extractLsb' 0 2 = phaseCode s.phase ∧ s.status.extractLsb' 2 6 = 0#6 ∧
    s.status.extractLsb' 8 8 = BitVec.ofNat 8 s.bufsz ∧
    s.status.extractLsb' 16 4 = errCode s.err ∧ s.status.extractLsb' 20 12 = 0#12 := by
  rw [State.status_eq_or]
  refine ⟨?_, ?_, ?_, ?_, ?_⟩ <;>
    simp (disch := omega) only [BitVec.extractLsb'_or, extractLsb'_field_same, extractLsb'_field_below,
      extractLsb'_field_above, BitVec.zero_or, BitVec.or_zero]

/-- PARAM with its lowest field written as the others are. -/
theorem param_eq_or (v : Variant) :
    param v = (variantCode v).setWidth 32 <<< 24 ||| (pad v).setWidth 32 <<< 16 |||
      (BitVec.ofNat 8 (outBytes v)).setWidth 32 <<< 8 |||
      (BitVec.ofNat 8 (rate v)).setWidth 32 <<< 0 := by
  rw [BitVec.shiftLeft_zero, param]

/-- The fields of PARAM (R33). -/
theorem param_fields (v : Variant) :
    (param v).extractLsb' 0 8 = BitVec.ofNat 8 (rate v) ∧
    (param v).extractLsb' 8 8 = BitVec.ofNat 8 (outBytes v) ∧ (param v).extractLsb' 16 8 = pad v ∧
    (param v).extractLsb' 24 3 = variantCode v ∧ (param v).extractLsb' 27 5 = 0#5 := by
  rw [param_eq_or]
  refine ⟨?_, ?_, ?_, ?_, ?_⟩ <;>
    simp (disch := omega) only [BitVec.extractLsb'_or, extractLsb'_field_same, extractLsb'_field_below,
      extractLsb'_field_above, BitVec.zero_or, BitVec.or_zero]

/-- A number of at most `RATE` fits its byte of a side port. -/
theorem toNat_ofNat_of_le_rate {n : Nat} {v : Variant} (h : n ≤ rate v) : (BitVec.ofNat 8 n).toNat = n := by
  have hmax := params_bounds v
  rw [BitVec.toNat_ofNat, Nat.mod_eq_of_lt (by omega)]

/-! ## Fresh states -/

/-- The session cleared and no fault: fresh (R36). -/
theorem State.clearSession_fresh {s : State} (h : s.err = .none) : s.clearSession.Fresh :=
  ⟨rfl, fun j _ => lane_zeroSponge j, rfl, h⟩

theorem State.applyRst_fresh (s : State) (stream : List Byte) : (s.applyRst stream).Fresh :=
  ⟨rfl, fun j _ => lane_zeroSponge j, rfl, rfl⟩

theorem State.resetOf_fresh (v : Variant) : (State.resetOf v).Fresh :=
  ⟨rfl, fun j _ => lane_zeroSponge j, rfl, rfl⟩

theorem State.resetOf_accepting (v : Variant) : (State.resetOf v).Accepting :=
  ⟨rfl, rfl, rfl, by simp⟩

/-- A fresh block shows STATUS 0. -/
theorem State.Fresh.status_eq_zero {s : State} (h : s.Fresh) : s.status = 0#32 := by
  rw [State.status, h.phaseAbsorbing, h.errNone, State.bufsz, h.bufEmpty]
  rfl

/-! ## The invariant -/

/-- With no command in progress the invariant is its first three parts. -/
theorem State.inv_of_idle {s : State} (hbuf : s.bufsz < rate s.variant)
    (hempty : s.phase = .finalized → s.buf = []) (herr : s.err = .none ↔ s.phase ≠ .fault)
    (hpending : s.pending = none) (hdigest : s.digest = []) : s.Inv where
  bufBound := hbuf
  finalizedEmpty := hempty
  errExact := herr
  pendingOk len h := by
    rw [hpending] at h
    cases h
  digestOk h := absurd hdigest h

/-- A fresh block with no command in progress meets the invariant. -/
theorem State.Fresh.inv {s : State} (h : s.Fresh) (hpending : s.pending = none) (hdigest : s.digest = []) :
    s.Inv :=
  State.inv_of_idle (by rw [State.bufsz, h.bufEmpty]; exact rate_pos s.variant) (fun _ => h.bufEmpty)
    (by simp [h.phaseAbsorbing, h.errNone]) hpending hdigest

theorem State.Inv.err_none {s : State} (h : s.Inv) (hp : s.phase ≠ .fault) : s.err = .none :=
  h.errExact.mpr hp

theorem State.Inv.digest_nil_of_fault {s : State} (h : s.Inv) (hp : s.phase = .fault) : s.digest = [] := by
  by_contra hd
  obtain ⟨hfin, -, -⟩ := h.digestOk hd
  rw [hp] at hfin
  cases hfin

/-- The invariant does not speak of the command stream. -/
theorem State.Inv.set_cmd {s : State} (h : s.Inv) (bytes : List Byte) : ({ s with cmd := bytes } : State).Inv :=
  ⟨h.bufBound, h.finalizedEmpty, h.errExact, h.pendingOk, h.digestOk⟩

/-- A waiting UPDATE taken up again: no command is then in progress, and the rest is as it was. -/
theorem State.Inv.clear_pending {s : State} (h : s.Inv) : ({ s with pending := none } : State).Inv where
  bufBound := h.bufBound
  finalizedEmpty := h.finalizedEmpty
  errExact := h.errExact
  pendingOk := nofun
  digestOk hd := by
    obtain ⟨hp, -, hlen⟩ := h.digestOk hd
    exact ⟨hp, rfl, hlen⟩

/-- Entering FAULT with a code keeps the invariant when no command is in progress. -/
theorem State.Inv.raise {s : State} (h : s.Inv) {code : Err} (hcode : code ≠ .none) (hpending : s.pending = none)
    (hdigest : s.digest = []) : (s.raise code).Inv :=
  State.inv_of_idle h.bufBound nofun (by simp [hcode]) hpending hdigest

/-- The host's taking keeps the invariant: the bytes left are no more than there were. -/
theorem State.Inv.hostTake {s : State} (h : s.Inv) : s.hostTake.Inv where
  bufBound := by simpa [State.bufsz] using h.bufBound
  finalizedEmpty := by simpa using h.finalizedEmpty
  errExact := by simpa using h.errExact
  pendingOk := by simpa using h.pendingOk
  digestOk hd := by
    have hsuffix := s.hostTake_digest_suffix
    have hne : s.digest ≠ [] := by
      intro hnil
      rw [hnil] at hsuffix
      exact hd (List.suffix_nil.mp hsuffix)
    obtain ⟨hp, hpending, hlen⟩ := h.digestOk hne
    simpa [hp, hpending] using hsuffix.length_le.trans hlen

/-- Putting at most `OUT_BYTES` digest bytes on an empty digest stream in FINALIZED keeps the invariant. -/
theorem State.Inv.outWrite {s : State} (h : s.Inv) (hp : s.phase = .finalized) (hpending : s.pending = none)
    (hdigest : s.digest = []) {d : List Byte} (hd : d.length ≤ outBytes s.variant) : (s.outWrite d).Inv := by
  have hwaiting : ({ s with digest := s.digest ++ d } : State).Inv :=
    ⟨h.bufBound, h.finalizedEmpty, h.errExact, h.pendingOk,
      fun _ => ⟨hp, hpending, by simpa [hdigest] using hd⟩⟩
  exact hwaiting.hostTake

/-- A command keeps the invariant when no other is in progress. -/
theorem exec_keeps_inv {i : Instr} {s t : State} (hinv : s.Inv) (hpending : s.pending = none)
    (hdigest : s.digest = []) (hi : i.wellFormed = true) (h : exec i s = .next t) : t.Inv := by
  rcases exec_cases h with ⟨-, rfl⟩ | ⟨-, -, rfl⟩ | ⟨hp, -, rfl⟩ | ⟨len, rfl, hp, -, rfl⟩ |
    ⟨p, rest, -, hp, -, rfl⟩ | ⟨-, hp, rfl⟩
  · exact hinv
  · exact hinv.raise nofun hpending hdigest
  · exact (State.clearSession_fresh (hinv.err_none hp)).inv hpending hdigest
  · refine ⟨hinv.bufBound, hinv.finalizedEmpty, hinv.errExact, ?_, fun hd => absurd hdigest hd⟩
    rintro _ ⟨⟩
    exact ⟨hp, wellFormed_update.mp hi⟩
  · refine State.inv_of_idle ?_ (by simp [hp]) hinv.errExact hpending hdigest
    have hlen := length_absorbChunk permute s.variant s.sponge hinv.bufBound p
    exact hlen.trans_lt (Nat.mod_lt _ (rate_pos s.variant))
  · have herr : s.err = .none := hinv.err_none (by simp [hp])
    have hdone : ({ s with
        sponge := finalSponge permute s.variant s.sponge s.buf
        buf := []
        phase := .finalized } : State).Inv :=
      State.inv_of_idle (rate_pos s.variant) (fun _ => rfl) (by simp [herr]) hpending hdigest
    exact hdone.outWrite rfl hpending hdigest (List.length_take_le _ _)

/-- Every step keeps the invariant. -/
theorem step_keeps_inv {s t : State} (hinv : s.Inv) (h : step s = .next t) : t.Inv := by
  rcases step_cases h with ⟨stream, -, rfl⟩ | ⟨-, -, rfl⟩ | ⟨-, -, -, rfl⟩ | ⟨-, -, -, -, -, rfl⟩ |
    ⟨why, rest, -, hd, -, hn, -, rfl⟩ | ⟨i, rest, -, hd, -, hn, hw, hrun⟩ | ⟨len, -, hd, -, hl, hrun⟩
  · exact (s.applyRst_fresh stream).inv rfl rfl
  · exact hinv.hostTake
  · exact hinv
  · exact hinv
  · exact (hinv.set_cmd rest).raise nofun hn hd
  · exact exec_keeps_inv (hinv.set_cmd rest) hn hd (wellFormed_of_decode hw) hrun
  · obtain ⟨-, hlen⟩ := hinv.pendingOk len hl
    exact exec_keeps_inv hinv.clear_pending rfl hd (wellFormed_update.mpr hlen) hrun

/-! ## What a step does, from its hypotheses -/

section Accepting

variable {s : State} (ha : s.Accepting)
include ha

theorem State.Accepting.fetch_eq : fetch s = fetchWord s := by
  rw [fetch_of_accepting ha.noRst ha.digestTaken ha.notFault, fetchCommand, ha.notPending]

/-- With fewer than 4 bytes there the block waits. -/
theorem step_of_short (hc : s.cmd.length < 4) : step s = .next s :=
  step_of_settle (by rw [ha.fetch_eq, fetchWord, decode_eq_needMore.mpr hc])

theorem step_of_illegal {why : IllegalWord} {rest : List Byte} (hw : decode s.cmd = .illegal why rest) :
    step s = .next (State.raise { s with cmd := rest } .illegalCmd) :=
  step_of_settle (by rw [ha.fetch_eq, fetchWord, hw])

theorem step_of_command {i : Instr} {rest : List Byte} (hw : decode s.cmd = .command i rest) :
    step s = exec i { s with cmd := rest } :=
  step_of_run (by rw [ha.fetch_eq, fetchWord, hw])

/-- The word of a command stands next on the stream: the step is that command, its word taken. -/
theorem step_of_encode {i : Instr} (hi : i.wellFormed = true) {rest : List Byte} (hc : s.cmd = encode i ++ rest) :
    step s = exec i { s with cmd := rest } :=
  step_of_command ha (by rw [hc, decode_encode hi])

end Accepting

/-- An UPDATE that waits goes on. -/
theorem step_of_pending {s : State} (hr : s.rst = none) (hd : s.digest = []) (hp : s.phase ≠ .fault) {len : Nat}
    (hl : s.pending = some len) : step s = exec (.update len) { s with pending := none } :=
  step_of_run (by rw [fetch_of_accepting hr hd hp, fetchCommand, hl])

/-- In FINALIZED every command but RESET raises USE_AFTER_FINAL (R225). -/
theorem exec_of_finalized {s : State} (hp : s.phase = .finalized) {i : Instr} (hi : i ≠ .reset) :
    exec i s = .next (s.raise .useAfterFinal) := by
  cases i with
  | update len => exact execUpdate_finalized hp len
  | finalize => exact execFinalize_finalized hp
  | reset => exact absurd rfl hi

/-! ## What shows outside -/

/-- `u` shows what `t` shows, the digest bytes aside: the side ports, the command stream and the counts of digest
bytes are functions of these fields. -/
structure State.ShowsAs (u t : State) : Prop where
  variant : u.variant = t.variant
  bufsz : u.bufsz = t.bufsz
  phase : u.phase = t.phase
  err : u.err = t.err
  pending : u.pending = t.pending
  cmd : u.cmd = t.cmd
  taking : u.taking = t.taking
  digestLength : u.digest.length = t.digest.length
  receivedLength : u.received.length = t.received.length

theorem State.ShowsAs.status_eq {u t : State} (h : u.ShowsAs t) : u.status = t.status := by
  rw [State.status, State.status, h.err, h.bufsz, h.phase]

theorem State.ShowsAs.paramO_eq {u t : State} (h : u.ShowsAs t) : u.paramO = t.paramO := by
  rw [State.paramO, State.paramO, h.variant]

theorem State.ShowsAs.statusO_eq {u t : State} (h : u.ShowsAs t) : u.statusO = t.statusO := by
  have hempty : u.digest.isEmpty = t.digest.isEmpty := by
    rw [Bool.eq_iff_iff, List.isEmpty_iff, List.isEmpty_iff, ← List.length_eq_zero_iff, h.digestLength,
      List.length_eq_zero_iff]
  rw [State.statusO, State.statusO, State.commandInProgress, State.commandInProgress, h.pending, hempty,
    h.status_eq]

/-- Both take the same number of bytes from streams of the same length. -/
theorem State.ShowsAs.hostTake {u t : State} (h : u.ShowsAs t) : u.hostTake.ShowsAs t.hostTake := by
  obtain ⟨hvariant, hbufsz, hphase, herr, hpending, hcmd, htaking, hdigest, hreceived⟩ := h
  unfold State.hostTake
  rw [htaking]
  split
  · exact ⟨hvariant, hbufsz, hphase, herr, hpending, hcmd, rfl, rfl, by simp [hdigest, hreceived]⟩
  · exact ⟨hvariant, hbufsz, hphase, herr, hpending, hcmd, by simp [hdigest], by simp [hdigest],
      by simp [hdigest, hreceived]⟩

theorem State.ShowsAs.outWrite {u t : State} (h : u.ShowsAs t) {d e : List Byte} (hlen : d.length = e.length) :
    (u.outWrite d).ShowsAs (t.outWrite e) := by
  have hwaiting : ({ u with digest := u.digest ++ d } : State).ShowsAs { t with digest := t.digest ++ e } :=
    ⟨h.variant, h.bufsz, h.phase, h.err, h.pending, h.cmd, h.taking, by simp [h.digestLength, hlen],
      h.receivedLength⟩
  exact hwaiting.hostTake

/-- `s` with another sponge state and other buffer contents. -/
def State.withHidden (s : State) (S : Sponge) (buf : List Byte) : State := { s with sponge := S, buf := buf }

theorem State.withHidden_showsAs {s : State} {buf : List Byte} (S : Sponge) (hlen : buf.length = s.bufsz) :
    (s.withHidden S buf).ShowsAs s :=
  ⟨rfl, hlen, rfl, rfl, rfl, rfl, rfl, rfl, rfl⟩

/-- The host's taking does not look at the session. -/
theorem State.hostTake_withHidden (s : State) (S : Sponge) (buf : List Byte) :
    (s.withHidden S buf).hostTake = s.hostTake.withHidden S buf := by
  unfold State.hostTake State.withHidden
  cases s.taking <;> rfl

/-- What a command does with other hidden state shows as what it does with this, and gives the same digest bytes
unless the phase changed. -/
theorem exec_withHidden {i : Instr} {s t : State} (S : Sponge) {buf : List Byte} (hbuf : s.bufsz < rate s.variant)
    (hlen : buf.length = s.bufsz) (h : exec i s = .next t) :
    ∃ u, exec i (s.withHidden S buf) = .next u ∧ u.ShowsAs t ∧
      (t.phase = s.phase → u.digest = t.digest ∧ u.received = t.received) := by
  rcases exec_cases h with ⟨hp, rfl⟩ | ⟨hp, hi, rfl⟩ | ⟨hp, rfl, rfl⟩ | ⟨len, rfl, hp, hc, rfl⟩ |
    ⟨p, rest, rfl, hp, hc, rfl⟩ | ⟨rfl, hp, rfl⟩
  · exact ⟨_, exec_of_fault (s := t.withHidden S buf) hp i, State.withHidden_showsAs S hlen, fun _ => ⟨rfl, rfl⟩⟩
  · exact ⟨_, exec_of_finalized (s := s.withHidden S buf) hp hi,
      State.withHidden_showsAs (s := s.raise .useAfterFinal) S hlen, fun _ => ⟨rfl, rfl⟩⟩
  · exact ⟨_, execReset_clears (s := s.withHidden S buf) hp,
      State.withHidden_showsAs (s := s.clearSession) zeroSponge rfl, fun _ => ⟨rfl, rfl⟩⟩
  · exact ⟨_, execUpdate_waits (s := s.withHidden S buf) hp hc,
      State.withHidden_showsAs (s := { s with pending := some len }) S hlen, fun _ => ⟨rfl, rfl⟩⟩
  · have hkept : (absorbChunk permute (rate s.variant) S buf p).2.length =
        (absorbChunk permute (rate s.variant) s.sponge s.buf p).2.length := by
      rw [length_absorbChunk permute s.variant S (hlen.trans_lt hbuf), hlen,
        length_absorbChunk permute s.variant s.sponge hbuf]
    exact ⟨_, execUpdate_chunk (s := s.withHidden S buf) hp hc,
      ⟨rfl, hkept, rfl, rfl, rfl, rfl, rfl, rfl, rfl⟩, fun _ => ⟨rfl, rfl⟩⟩
  · refine ⟨_, execFinalize_absorbing (s := s.withHidden S buf) hp, State.ShowsAs.outWrite ?_ ?_, fun hsame => ?_⟩
    · exact ⟨rfl, rfl, rfl, rfl, rfl, rfl, rfl, rfl, rfl⟩
    · simp [State.withHidden]
    · rw [State.outWrite_phase, hp] at hsame
      cases hsame

/-- What a step does with other hidden state shows as what it does with this, and gives the same digest bytes
unless the phase changed (R35). -/
theorem step_withHidden {s t : State} (S : Sponge) {buf : List Byte} (hbuf : s.bufsz < rate s.variant)
    (hlen : buf.length = s.bufsz) (h : step s = .next t) :
    ∃ u, step (s.withHidden S buf) = .next u ∧ u.ShowsAs t ∧
      (t.phase = s.phase → u.digest = t.digest ∧ u.received = t.received) := by
  rcases step_cases h with ⟨stream, hr, rfl⟩ | ⟨hr, hd, rfl⟩ | ⟨hr, hd, hp, rfl⟩ | ⟨hr, hd, hp, hn, hc, rfl⟩ |
    ⟨why, rest, hr, hd, hp, hn, hw, rfl⟩ | ⟨i, rest, hr, hd, hp, hn, hw, hrun⟩ | ⟨len, hr, hd, hp, hl, hrun⟩
  · exact ⟨_, step_of_rst hr, State.withHidden_showsAs (s := s.applyRst stream) zeroSponge rfl,
      fun _ => ⟨rfl, rfl⟩⟩
  · have hstep := step_of_digest (s := s.withHidden S buf) hr hd
    rw [State.hostTake_withHidden] at hstep
    exact ⟨_, hstep, State.withHidden_showsAs S (by simpa [State.bufsz] using hlen), fun _ => ⟨rfl, rfl⟩⟩
  · exact ⟨_, step_of_fault (s := t.withHidden S buf) hr hd hp, State.withHidden_showsAs S hlen,
      fun _ => ⟨rfl, rfl⟩⟩
  · exact ⟨_, step_of_short (s := t.withHidden S buf) ⟨hr, hn, hd, hp⟩ hc, State.withHidden_showsAs S hlen,
      fun _ => ⟨rfl, rfl⟩⟩
  · exact ⟨_, step_of_illegal (s := s.withHidden S buf) ⟨hr, hn, hd, hp⟩ hw,
      State.withHidden_showsAs (s := State.raise { s with cmd := rest } .illegalCmd) S hlen,
      fun _ => ⟨rfl, rfl⟩⟩
  · obtain ⟨u, hu, hresult⟩ := exec_withHidden (s := { s with cmd := rest }) S hbuf hlen hrun
    exact ⟨u, (step_of_command (s := s.withHidden S buf) ⟨hr, hn, hd, hp⟩ hw).trans hu, hresult⟩
  · obtain ⟨u, hu, hresult⟩ := exec_withHidden (s := { s with pending := none }) S hbuf hlen hrun
    exact ⟨u, (step_of_pending (s := s.withHidden S buf) hr hd hp hl).trans hu, hresult⟩

/-! ## The statements -/

/-- Settles O16, by the cases of a step and then of a command. -/
theorem stepKeepsTheInvariant : Obligations.StepKeepsTheInvariant :=
  fun _ _ => step_keeps_inv

/-- Settles O11: each field of STATUS read back, BUFSZ inside its byte by the buffer bound. -/
theorem statusFields : Obligations.StatusFields := by
  refine ⟨fun s hinv => ?_, fun v => (State.resetOf_fresh v).status_eq_zero, fun s bytes taking => ⟨rfl, rfl, rfl⟩⟩
  obtain ⟨hphase, hlow, hbufsz, herr, hhigh⟩ := s.status_fields
  refine ⟨?_, hlow, ?_, ?_, hhigh⟩
  · rw [hphase]
    cases s.phase <;> rfl
  · rw [hbufsz, toNat_ofNat_of_le_rate hinv.bufBound.le]
  · rw [herr]
    cases s.err <;> rfl

/-- Settles O46: one clause per row, each by the equation of the step it makes. -/
theorem phaseTransitions : Obligations.PhaseTransitions := by
  refine ⟨?update, ?finalize, ?reset, ?illegal, ?useAfterFinal, ?fault, ?rst⟩
  case update =>
    intro s p rest ha hp hlen hc
    rw [updateBytes, List.append_assoc] at hc
    have hstep := step_of_encode ha (wellFormed_update.mpr hlen) hc
    exact ⟨_, hstep.trans (execUpdate_chunk (s := { s with cmd := p ++ rest }) hp rfl), hp, ha.notPending⟩
  case finalize =>
    intro s rest ha hp hc
    exact ⟨_, (step_of_encode ha rfl hc).trans (execFinalize_absorbing hp), State.outWrite_phase _ _⟩
  case reset =>
    intro s rest hinv ha hc
    exact ⟨_, (step_of_encode ha rfl hc).trans (execReset_clears ha.notFault), rfl,
      State.clearSession_fresh (hinv.err_none ha.notFault)⟩
  case illegal =>
    intro s why rest ha hw
    exact ⟨_, step_of_illegal ha hw, rfl, rfl⟩
  case useAfterFinal =>
    intro s i rest ha hp hi hw
    exact ⟨_, (step_of_command ha hw).trans (exec_of_finalized (s := { s with cmd := rest }) hp hi), rfl, rfl⟩
  case fault =>
    intro s hinv hp hr
    exact ⟨s, step_of_fault hr (hinv.digest_nil_of_fault hp) hp, hp, rfl⟩
  case rst =>
    intro s stream hr
    exact ⟨_, step_of_rst hr, rfl, s.applyRst_fresh stream⟩

/-- Settles O55: the two steps take the same case, and what shows is a function of what they have in common. -/
theorem hiddenStateShowsOnlyInDigests : Obligations.HiddenStateShowsOnlyInDigests := by
  intro s t S buf hinv hlen h
  obtain ⟨u, hu, hshows, hdigest⟩ := step_withHidden S hinv.bufBound hlen h
  exact ⟨u, hu, hshows.statusO_eq, hshows.status_eq, hshows.paramO_eq, hshows.cmd, hshows.pending, hshows.taking,
    hshows.phase, hshows.err, hshows.digestLength, hshows.receivedLength, hdigest⟩

/-- Settles O10: each field of PARAM read back, RATE and OUT_BYTES inside their bytes by their bounds. -/
theorem paramFields : Obligations.ParamFields := by
  intro s
  obtain ⟨hrate, hout, hpad, hcode, hhigh⟩ := param_fields s.variant
  refine ⟨?_, ?_, hpad, hcode, hhigh⟩
  · rw [State.paramO, hrate, toNat_ofNat_of_le_rate (le_refl (rate s.variant))]
  · rw [State.paramO, hout, toNat_ofNat_of_le_rate (outBytes_le_rate s.variant)]

/-- Settles O13: the reset state of every variant is fresh and accepts commands. -/
theorem resetIsFresh : Obligations.ResetIsFresh :=
  ⟨State.resetOf_fresh _, (State.resetOf_fresh _).status_eq_zero, rfl, State.resetOf_accepting _,
    fun v => ⟨State.resetOf_fresh v, State.resetOf_accepting v, rfl⟩⟩

/-- Settles O15: a fresh block with no command in progress meets the invariant. -/
theorem invariantHoldsAtReset : Obligations.InvariantHoldsAtReset :=
  ⟨(State.resetOf_fresh _).inv rfl rfl, fun v => (State.resetOf_fresh v).inv rfl rfl⟩

end Sys2Proof.Machine

/-! The memory of the block: the bytes of a word, of a lane and of the sponge state, and the two byte streams, which
end of them a step reads or writes and what it leaves there (rules R52 to R58, R59, R62, R63, R236). -/

namespace Sys2Proof

/-! ## Bytes of a vector -/

/-- The low `n` bytes of a vector as a number, least significant byte first. -/
theorem toNat_mod_eq_sum_bytes {w : Nat} (x : BitVec w) (n : Nat) :
    x.toNat % 2 ^ (8 * n) =
      ((List.range n).map fun i => (x.extractLsb' (8 * i) 8).toNat * 2 ^ (8 * i)).sum := by
  induction n with
  | zero => simp [Nat.mod_one]
  | succ n ih =>
    have hbyte : (x.extractLsb' (8 * n) 8).toNat = x.toNat / 2 ^ (8 * n) % 2 ^ 8 := by
      rw [BitVec.extractLsb'_toNat, Nat.shiftRight_eq_div_pow]
    rw [Nat.mul_succ, Nat.pow_add, Nat.mod_mul, ih, List.range_succ, List.map_append, List.sum_append,
      List.map_singleton, List.sum_singleton, hbyte, Nat.mul_comm (2 ^ (8 * n))]

/-! ## Bytes of a command word -/

/-- A command word is the little-endian sum of its 4 bytes. -/
theorem toNat_word_eq_sum (w : CmdWord) :
    w.toNat = (w.extractLsb' 0 8).toNat + (w.extractLsb' 8 8).toNat * 2 ^ 8 +
      (w.extractLsb' 16 8).toNat * 2 ^ 16 + (w.extractLsb' 24 8).toNat * 2 ^ 24 := by
  simp only [BitVec.extractLsb'_toNat, Nat.shiftRight_eq_div_pow]
  omega

/-- The bytes of the word of 4 bytes are those 4 bytes (R59). -/
theorem bytesOfWord_wordOfBytes (b0 b1 b2 b3 : Byte) :
    bytesOfWord (wordOfBytes b0 b1 b2 b3) = [b0, b1, b2, b3] := by
  have hword : wordOfBytes b0 b1 b2 b3 =
      b0.setWidth 32 <<< 0 ||| b1.setWidth 32 <<< 8 ||| b2.setWidth 32 <<< 16 ||| b3.setWidth 32 <<< 24 := by
    rw [BitVec.shiftLeft_zero, wordOfBytes]
  rw [bytesOfWord, hword]
  simp (disch := omega) only [BitVec.extractLsb'_or, extractLsb'_field_same, extractLsb'_field_below,
    extractLsb'_field_above, BitVec.zero_or, BitVec.or_zero]

/-- A word is its OPC with its upper 24 bits above it (R72). -/
theorem word_eq_fields (w : CmdWord) : w = (restField w).setWidth 32 <<< 8 ||| (opcField w).setWidth 32 := by
  apply BitVec.eq_of_getLsbD_eq
  intro z hz
  by_cases hlow : z < 8
  · simp [opcField, restField, hz, hlow]
  · have hsum : 8 + (z - 8) = z := by omega
    simp [opcField, restField, hz, hlow, hsum, show z - 8 < 24 by omega]

/-- A legal word is the word of the command it selects (R72, R76). -/
theorem encodeWord_of_decodeWord {w : CmdWord} {i : Instr} (h : decodeWord w = .ok i) : encodeWord i = w := by
  have hw := word_eq_fields w
  unfold decodeWord at h
  split_ifs at h with hupdate hfinalize hzero hreset hzero
  · cases h
    rw [hupdate] at hw
    rw [encodeWord, BitVec.ofNat_toNat, BitVec.setWidth_eq]
    exact hw.symm
  · cases h
    rw [hfinalize, hzero] at hw
    exact hw.symm
  · cases h
    rw [hreset, hzero] at hw
    exact hw.symm

/-! ## What the decoder takes from the stream -/

/-- A decoder that does not wait has a word at the front of the stream (R75). -/
theorem exists_word_of_decode {bs : List Byte} (h : decode bs ≠ .needMore) :
    ∃ w rest, bs = bytesOfWord w ++ rest := by
  have hlen : ¬ bs.length < 4 := mt decode_eq_needMore.mpr h
  rcases bs with _ | ⟨b0, _ | ⟨b1, _ | ⟨b2, _ | ⟨b3, rest⟩⟩⟩⟩
  case cons.cons.cons.cons =>
    exact ⟨wordOfBytes b0 b1 b2 b3, rest, by rw [bytesOfWord_wordOfBytes]; rfl⟩
  all_goals simp at hlen

/-- A decoded command stood at the front of the stream as its own 4 bytes (R73, R75). -/
theorem eq_encode_append_of_decode {bs rest : List Byte} {i : Instr} (h : decode bs = .command i rest) :
    bs = encode i ++ rest := by
  obtain ⟨w, tail, rfl⟩ := exists_word_of_decode (by rw [h]; nofun)
  rw [decode_bytesOfWord] at h
  split at h
  next j hw =>
    cases h
    rw [encode, encodeWord_of_decodeWord hw]
  next => cases h

/-- An illegal word is 4 bytes at the front of the stream (R224). -/
theorem exists_word_of_decode_illegal {bs rest : List Byte} {why : IllegalWord} (h : decode bs = .illegal why rest) :
    ∃ w, bs = bytesOfWord w ++ rest := by
  obtain ⟨w, tail, rfl⟩ := exists_word_of_decode (by rw [h]; nofun)
  rw [decode_bytesOfWord] at h
  split at h
  next => cases h
  next =>
    cases h
    exact ⟨w, rfl⟩

/-- A command with an encoding takes at most its word and the longest payload. -/
theorem commandLength_le {i : Instr} (h : i.wellFormed = true) : commandLength i ≤ 4 + 16777215 := by
  cases i with
  | update len =>
    have hlen := wellFormed_update.mp h
    rw [commandLength]
    omega
  | finalize => decide
  | reset => decide

end Sys2Proof

namespace Sys2Proof.Machine

/-! ## Bytes of the sponge state -/

/-- Writing a state byte leaves every other lane as it was (R52). -/
theorem lane_setStateByte_of_ne (S : Sponge) (b : Byte) {k j : Nat} (hj : j < 25) (hne : j ≠ k / 8) :
    lane (setStateByte S k b) j = lane S j := by
  rw [setStateByte, lane_setLane _ _ _ hj, if_neg hne.symm]

/-- A lane is the little-endian sum of its 8 bytes. -/
theorem toNat_lane_eq_sum (v : Lane) :
    v.toNat = ((List.range 8).map fun i => (laneByte v i).toNat * 2 ^ (8 * i)).sum :=
  (Nat.mod_eq_of_lt v.isLt).symm.trans (toNat_mod_eq_sum_bytes v 8)

/-- Byte `i` of lane `j` in `Bytes_LE(S)` (R53). -/
theorem getD_bytesLE_lane (S : Sponge) {j i : Nat} (hj : j < 25) (hi : i < 8) :
    (bytesLE S).getD (8 * j + i) 0#8 = laneByte (lane S j) i := by
  rw [List.getD_eq_getElem?_getD, getElem?_bytesLE S (by omega), Option.getD_some, stateByte,
    show (8 * j + i) / 8 = j by omega, show (8 * j + i) % 8 = i by omega]

/-- XOR of a block, seen byte by byte (R54). -/
theorem stateByte_xorBlock (S : Sponge) {block : List Byte} (hlen : block.length ≤ 200) {k : Nat} (hk : k < 200) :
    stateByte (xorBlock S block) k =
      if k < block.length then stateByte S k ^^^ block.getD k 0#8 else stateByte S k := by
  rw [xorBlock, stateByte_xorBytes block S 0 (by omega) hk]
  simp

/-- Exactly one block: one XOR, one permutation, nothing left over. -/
theorem absorb_oneBlock (P : Sponge → Sponge) {r : Nat} (hr : 1 ≤ r) (S : Sponge) {block : List Byte}
    (hlen : block.length = r) : absorb P r S block = (P (xorBlock S block), 0) := by
  have h := absorb_block P hr S hlen []
  rwa [List.append_nil, absorb_short P r _ (data := []) hr] at h

/-! ## The command stream -/

/-- Sending bytes does not keep the block from taking the next command. -/
theorem State.Accepting.hostSend {s : State} (ha : s.Accepting) (bytes : List Byte) : (s.hostSend bytes).Accepting :=
  ⟨ha.noRst, ha.notPending, ha.digestTaken, ha.notFault⟩

/-- A step at a state where an UPDATE waits is that UPDATE at the state it was given (R56). -/
theorem step_of_waiting {s : State} (ha : s.Accepting) (len : Nat) :
    step { s with pending := some len } = exec (.update len) s := by
  have hgiven : ({ s with pending := none } : State) = s := by rw [← ha.notPending]
  exact (step_of_pending (s := { s with pending := some len }) ha.noRst ha.digestTaken ha.notFault rfl).trans
    (congrArg (exec (.update len)) hgiven)

/-- UPDATE in ABSORBING: it waits and takes nothing, or takes the LEN bytes at the front of the stream. -/
theorem exec_update_cases {s t : State} {len : Nat} (hp : s.phase = .absorbing) (h : exec (.update len) s = .next t) :
    (s.cmd.length < len ∧ t = { s with pending := some len }) ∨
    (∃ p rest, p.length = len ∧ s.cmd = p ++ rest ∧
      t = { s with
        cmd := rest
        sponge := (absorbChunk permute (rate s.variant) s.sponge s.buf p).1
        buf := (absorbChunk permute (rate s.variant) s.sponge s.buf p).2 }) := by
  rcases exec_cases h with ⟨hfault, -⟩ | ⟨hfinal, -⟩ | ⟨-, hi, -⟩ | ⟨n, hi, -, hc, ht⟩ |
    ⟨p, rest, hi, -, hc, ht⟩ | ⟨hi, -⟩
  · rw [hp] at hfault
    cases hfault
  · rw [hp] at hfinal
    cases hfinal
  · cases hi
  · cases hi
    exact .inl ⟨hc, ht⟩
  · cases hi
    exact .inr ⟨p, rest, rfl, hc, ht⟩
  · cases hi

/-- A command takes bytes from the front of the stream only, at most the payload its word asks for (R71). -/
theorem exec_takes_payload {i : Instr} {s t : State} (h : exec i s = .next t) :
    ∃ taken, s.cmd = taken ++ t.cmd ∧ 4 + taken.length ≤ commandLength i := by
  have hword : 4 ≤ commandLength i := by
    cases i with
    | update len => exact Nat.le_add_right 4 len
    | finalize => exact le_rfl
    | reset => exact le_rfl
  rcases exec_cases h with ⟨-, rfl⟩ | ⟨-, -, rfl⟩ | ⟨-, -, rfl⟩ | ⟨len, -, -, -, rfl⟩ |
    ⟨p, rest, rfl, -, hc, rfl⟩ | ⟨-, -, rfl⟩
  · exact ⟨[], rfl, hword⟩
  · exact ⟨[], rfl, hword⟩
  · exact ⟨[], rfl, hword⟩
  · exact ⟨[], rfl, hword⟩
  · exact ⟨p, hc, le_rfl⟩
  · exact ⟨[], by rw [State.outWrite_cmd]; rfl, hword⟩

/-! ## The digest stream -/

/-- A command leaves all that was put on the digest stream as it was, unless it is a FINALIZE in ABSORBING, which adds
`OUT_BYTES` bytes at its end (R165). -/
theorem exec_observed {i : Instr} {s t : State} (h : exec i s = .next t) :
    t.received ++ t.digest = s.received ++ s.digest ∨
    (i = .finalize ∧ s.phase = .absorbing ∧ t.phase = .finalized ∧ t.cmd = s.cmd ∧
      ∃ d, d.length = outBytes s.variant ∧ t.received ++ t.digest = s.received ++ s.digest ++ d) := by
  rcases exec_cases h with ⟨-, rfl⟩ | ⟨-, -, rfl⟩ | ⟨-, -, rfl⟩ | ⟨len, -, -, -, rfl⟩ |
    ⟨p, rest, -, -, -, rfl⟩ | ⟨hi, hp, rfl⟩
  · exact .inl rfl
  · exact .inl rfl
  · exact .inl rfl
  · exact .inl rfl
  · exact .inl rfl
  · have hout : outBytes s.variant ≤ 200 := (outBytes_le_rate _).trans (rate_le_stateBytes _)
    refine .inr ⟨hi, hp, State.outWrite_phase _ _, State.outWrite_cmd _ _, _, ?_, State.outWrite_observed _ _⟩
    rw [List.length_take, length_bytesLE, Nat.min_eq_left hout]

/-- FINALIZE in ABSORBING is one `OutWrite` at a state that differs in S, BUF and PHASE only. -/
theorem exec_finalize_eq_outWrite {s t : State} (hp : s.phase = .absorbing) (h : exec .finalize s = .next t) :
    ∃ S d, t = State.outWrite { s with sponge := S, buf := [], phase := .finalized } d :=
  ⟨_, _, (Host.Outcome.next.inj ((execFinalize_absorbing hp).symm.trans h)).symm⟩

/-- No command is in progress exactly when no UPDATE and no digest byte waits (R56, R57). -/
theorem State.commandInProgress_eq_false_iff {s : State} :
    s.commandInProgress = false ↔ s.pending = none ∧ s.digest = [] := by
  simp [State.commandInProgress]

/-! ## The statements -/

/-- Settles O20: a state byte read back after a write, and the lanes the write does not name. -/
theorem stateByteLayout : Obligations.StateByteLayout := by
  intro S k b _
  refine ⟨rfl, fun j hj => ?_, fun j hj hne => lane_setStateByte_of_ne S b hj hne, rfl, rfl, rfl⟩
  rw [stateByte_setStateByte S b k hj]
  exact if_congr eq_comm rfl rfl

/-- Settles O21: the bytes of a lane stand together in `Bytes_LE(S)`, and a lane is the sum of its bytes. -/
theorem laneIsTheSumOfItsBytes : Obligations.LaneIsTheSumOfItsBytes := by
  intro S
  refine ⟨length_bytesLE S, fun k hk => getElem?_bytesLE S hk, fun j hj => ?_⟩
  rw [toNat_lane_eq_sum]
  congr 1
  apply List.map_congr_left
  intro i hi
  rw [getD_bytesLE_lane S hj (List.mem_range.mp hi)]

/-- Settles O22: the state that is permuted is the XOR of the block into the old one. -/
theorem absorbXorsOnlyRateBytes : Obligations.AbsorbXorsOnlyRateBytes := by
  rintro P r S block hr hmax rfl
  exact ⟨xorBlock S block, absorb_oneBlock P hr S rfl, fun k hk => stateByte_xorBlock S hmax hk⟩

/-- Settles O30: a step at the waiting state is the command again at the state it was given, bytes sent included. -/
theorem updateWaitsForItsPayload : Obligations.UpdateWaitsForItsPayload := by
  intro s len more ha hp hc
  have hwaits : exec (.update len) s = .next { s with pending := some len } := execUpdate_waits hp hc
  exact ⟨_, hwaits, rfl, (step_of_waiting ha len).trans hwaits, step_of_waiting (ha.hostSend more) len⟩

/-- Settles O31: the frame of each of the two answers of UPDATE in ABSORBING. -/
theorem updateFrame : Obligations.UpdateFrame := by
  intro s t len hp h
  rcases exec_update_cases hp h with ⟨hc, rfl⟩ | ⟨p, rest, hlen, hc, rfl⟩
  · exact ⟨rfl, rfl, rfl, rfl, rfl, rfl, rfl, rfl, .inr ⟨hc, rfl, rfl, rfl, rfl⟩⟩
  · exact ⟨rfl, rfl, rfl, rfl, rfl, rfl, rfl, rfl, .inl ⟨p, hlen, hc, rfl⟩⟩

/-- Settles O53: of the cases of a step only a FINALIZE word at the front of the stream adds digest bytes. -/
theorem onlyFinalizeWritesTheDigestStream : Obligations.OnlyFinalizeWritesTheDigestStream := by
  intro s t _ hr h
  rcases step_cases h with ⟨stream, hrst, -⟩ | ⟨-, -, rfl⟩ | ⟨-, -, -, rfl⟩ | ⟨-, -, -, -, -, rfl⟩ |
    ⟨why, rest, -, -, -, -, -, rfl⟩ | ⟨i, rest, -, -, -, -, hw, hrun⟩ | ⟨len, -, -, -, -, hrun⟩
  · rw [hr] at hrst
    cases hrst
  · exact .inl s.hostTake_observed
  · exact .inl rfl
  · exact .inl rfl
  · exact .inl rfl
  · rcases exec_observed hrun with hkept | ⟨rfl, hp, hfinal, hcmd, hdigest⟩
    · exact .inl hkept
    · refine .inr ⟨hp, hfinal, ?_, hdigest⟩
      rw [hcmd]
      exact eq_encode_append_of_decode hw
  · rcases exec_observed hrun with hkept | ⟨hi, -⟩
    · exact .inl hkept
    · cases hi

/-- Settles O54: a step takes nothing, or a word and then what its command takes, or what a waiting UPDATE takes. -/
theorem commandStreamIsReadOnce : Obligations.CommandStreamIsReadOnce := by
  intro s t hinv hr h
  rcases step_cases h with ⟨stream, hrst, -⟩ | ⟨-, -, rfl⟩ | ⟨-, -, -, rfl⟩ | ⟨-, -, -, -, -, rfl⟩ |
    ⟨why, rest, -, -, -, -, hw, rfl⟩ | ⟨i, rest, -, -, -, -, hw, hrun⟩ | ⟨len, -, -, -, hl, hrun⟩
  · rw [hr] at hrst
    cases hrst
  · exact ⟨[], s.hostTake_cmd.symm, by simp⟩
  · exact ⟨[], rfl, by simp⟩
  · exact ⟨[], rfl, by simp⟩
  · obtain ⟨w, hc⟩ := exists_word_of_decode_illegal hw
    exact ⟨bytesOfWord w, hc, by simp⟩
  · obtain ⟨taken, hc, hlen⟩ := exec_takes_payload hrun
    have hmax := commandLength_le (wellFormed_of_decode hw)
    refine ⟨encode i ++ taken, ?_, ?_⟩
    · rw [List.append_assoc, ← hc]
      exact eq_encode_append_of_decode hw
    · rw [List.length_append, length_encode]
      omega
  · obtain ⟨taken, hc, hlen⟩ := exec_takes_payload hrun
    obtain ⟨-, hfits⟩ := hinv.pendingOk len hl
    have hmax := commandLength_le (wellFormed_update.mpr hfits)
    exact ⟨taken, hc, by omega⟩

/-- Settles O6: a word is the sum of its bytes, and its bytes are the 4 it was made of. -/
theorem commandWordIsLittleEndian : Obligations.CommandWordIsLittleEndian := by
  intro b0 b1 b2 b3
  have hbytes := bytesOfWord_wordOfBytes b0 b1 b2 b3
  refine ⟨?_, hbytes⟩
  simp only [bytesOfWord, List.cons.injEq, and_true] at hbytes
  obtain ⟨h0, h1, h2, h3⟩ := hbytes
  rw [toNat_word_eq_sum, h0, h1, h2, h3]

/-- Settles O12: the two answers of `status_o`, by whether a command is in progress. -/
theorem statusPortOnlyBetweenCommands : Obligations.StatusPortOnlyBetweenCommands := by
  intro s
  rw [← State.commandInProgress_eq_false_iff, Bool.not_eq_false, State.statusO]
  exact ⟨fun h => by rw [h]; rfl, fun h => if_pos h⟩

/-- Settles O38: FINALIZE in ABSORBING is one `OutWrite`, which touches the digest streams only. -/
theorem finalizeFrame : Obligations.FinalizeFrame := by
  intro s t hp h
  obtain ⟨S, d, rfl⟩ := exec_finalize_eq_outWrite hp h
  refine ⟨State.outWrite_variant _ _, State.outWrite_err _ _, State.outWrite_cmd _ _, State.outWrite_pending _ _,
    State.outWrite_rst _ _, congrArg param (State.outWrite_variant _ _),
    State.received_prefix_outWrite { s with sponge := S, buf := [], phase := .finalized } d, ?_,
    fun htaking => State.outWrite_taking_of_always (s := { s with sponge := S, buf := [], phase := .finalized })
      htaking d⟩
  rw [State.outWrite_observed]
  exact List.prefix_append _ _

/-- Settles O47, by the decoder's answer at the word of a well-formed command. -/
theorem stepRunsTheDecodedCommand : Obligations.StepRunsTheDecodedCommand :=
  fun _ _ _ ha hi hc => step_of_encode ha hi hc

/-- Settles O48: past `rst`, the digest stream and FAULT, a step looks at the waiting UPDATE. -/
theorem stepResumesTheWaitingUpdate : Obligations.StepResumesTheWaitingUpdate :=
  fun _ _ hr hd hp hl => step_of_pending hr hd hp hl

/-- Settles O49: the decoder finds less than a word and the step is settled there. -/
theorem stepWaitsForACommandWord : Obligations.StepWaitsForACommandWord :=
  fun _ ha hc => step_of_short ha hc

/-- Settles O50: the step is `hostTake`, which touches the digest streams only. -/
theorem noCommandWhileDigestBytesWait : Obligations.NoCommandWhileDigestBytesWait := by
  intro s hr hd
  exact ⟨s.hostTake, step_of_digest hr hd, s.hostTake_cmd, s.hostTake_sponge, s.hostTake_buf, s.hostTake_phase,
    s.hostTake_err, s.hostTake_pending, s.hostTake_observed, s.received_prefix_hostTake,
    fun htaking => congrArg State.digest (State.hostTake_always htaking)⟩

end Sys2Proof.Machine

/-! The encoding: the decoder's choice in terms of the word's number, the round trip between commands and words, and
the bytes a line of assembly stands for (rules R71 to R80, R224). -/

namespace Sys2Proof

/-! ## The decoder's choice as a number -/

theorem toNat_opcField (w : CmdWord) : (opcField w).toNat = w.toNat % 256 := by
  rw [opcField, BitVec.extractLsb'_toNat, Nat.shiftRight_zero]

theorem toNat_restField (w : CmdWord) : (restField w).toNat = w.toNat / 256 := by
  have hw : w.toNat < 2 ^ 32 := w.isLt
  rw [restField, BitVec.extractLsb'_toNat, Nat.shiftRight_eq_div_pow, Nat.mod_eq_of_lt (by omega)]

theorem opcField_eq_iff {w : CmdWord} {b : Byte} : opcField w = b ↔ w.toNat % 256 = b.toNat := by
  rw [← BitVec.toNat_inj, toNat_opcField]

theorem restField_eq_zero_iff {w : CmdWord} : restField w = 0#24 ↔ w.toNat / 256 = 0 := by
  rw [← BitVec.toNat_inj, toNat_restField, BitVec.toNat_zero]

/-- With OPC 1 the word is an UPDATE of its upper 24 bits (R74). -/
theorem decodeWord_update {w : CmdWord} (h : w.toNat % 256 = 1) :
    decodeWord w = .ok (.update (w.toNat / 256)) := by
  rw [decodeWord, if_pos (opcField_eq_iff.mpr h), toNat_restField]

/-- The illegal words are those with a reserved opcode and those with a nonzero reserved field (R76). -/
theorem exists_decodeWord_eq_error_iff {w : CmdWord} :
    (∃ why, decodeWord w = .error why) ↔
      (w.toNat % 256 = 0 ∨ 4 ≤ w.toNat % 256 ∨
        ((w.toNat % 256 = 2 ∨ w.toNat % 256 = 3) ∧ w.toNat / 256 ≠ 0)) := by
  have h1 : opcField w = 0x01#8 ↔ w.toNat % 256 = 1 := opcField_eq_iff
  have h2 : opcField w = 0x02#8 ↔ w.toNat % 256 = 2 := opcField_eq_iff
  have h3 : opcField w = 0x03#8 ↔ w.toNat % 256 = 3 := opcField_eq_iff
  simp only [decodeWord, h1, h2, h3, restField_eq_zero_iff]
  split_ifs with hupdate hfinalize hzero hreset hzero
  · exact iff_of_false nofun (by omega)
  · exact iff_of_false nofun (by omega)
  · exact iff_of_true ⟨_, rfl⟩ (by omega)
  · exact iff_of_false nofun (by omega)
  · exact iff_of_true ⟨_, rfl⟩ (by omega)
  · exact iff_of_true ⟨_, rfl⟩ (by omega)

end Sys2Proof

namespace Sys2Proof.Machine

/-! ## Cutting a payload into pieces -/

theorem cutInto_succ_ne_nil (m fuel : Nat) (data : List Byte) : cutInto m (fuel + 1) data ≠ [] := by
  rw [cutInto]
  split <;> exact List.cons_ne_nil _ _

/-- With more turns than bytes nothing is left over, each turn taking at least one byte. -/
theorem flatten_cutInto {m : Nat} (hm : 0 < m) {fuel : Nat} {data : List Byte} (h : data.length < fuel) :
    (cutInto m fuel data).flatten = data := by
  induction fuel generalizing data with
  | zero => exact absurd h (Nat.not_lt_zero _)
  | succ fuel ih =>
    rw [cutInto]
    split
    · exact List.flatten_singleton
    next hlong =>
      have hshorter : (data.drop m).length < fuel := by
        rw [List.length_drop]
        omega
      rw [List.flatten_cons, ih hshorter, List.take_append_drop]

theorem length_le_of_mem_cutInto {m fuel : Nat} {data p : List Byte} (h : p ∈ cutInto m fuel data) :
    p.length ≤ m := by
  induction fuel generalizing data with
  | zero => cases h
  | succ fuel ih =>
    rw [cutInto] at h
    split at h
    next hshort =>
      rw [List.mem_singleton.mp h]
      exact hshort
    · rcases List.mem_cons.mp h with rfl | hlater
      · exact List.length_take_le _ _
      · exact ih hlater

/-! ## The statements -/

/-- Settles O1, by the decoder at the 4 bytes of the command's word. -/
theorem decodeOfEncodeIsTheCommand : Obligations.DecodeOfEncodeIsTheCommand :=
  fun _ rest h => decode_encode h rest

/-- Settles O2: a legal word is the word of the command it selects, and its LEN is 24 bits wide. -/
theorem encodeOfDecodeIsTheWord : Obligations.EncodeOfDecodeIsTheWord :=
  fun _ _ _ h => ⟨wellFormed_of_decode h, eq_encode_append_of_decode h⟩

/-- Settles O3: the numbers of the statement say exactly when the decoder refuses the word, and the step follows the
decoder. -/
theorem wordRunsItsCommandOrRaisesIllegalCmd : Obligations.WordRunsItsCommandOrRaisesIllegalCmd := by
  intro s w rest ha hc
  rw [← exists_decodeWord_eq_error_iff]
  constructor
  · rintro ⟨why, hw⟩
    exact step_of_illegal ha (by rw [hc, decode_bytesOfWord, hw])
  · intro hlegal
    cases hw : decodeWord w with
    | error why => exact absurd ⟨why, hw⟩ hlegal
    | ok i =>
      exact ⟨i, wellFormed_of_decodeWord hw, encodeWord_of_decodeWord hw,
        step_of_command ha (by rw [hc, decode_bytesOfWord, hw])⟩

/-- Settles O56: the pieces of a cut with more turns than bytes. -/
theorem updateLongCoversThePayload : Obligations.UpdateLongCoversThePayload :=
  fun data => ⟨flatten_cutInto (by decide) (Nat.lt_succ_self _), fun _ hp => length_le_of_mem_cutInto hp,
    cutInto_succ_ne_nil maxLen data.length data⟩

/-- Settles O4, by running the decoder on the words of R80. -/
theorem sampleWordsDecode : Obligations.SampleWordsDecode := by
  unfold Obligations.SampleWordsDecode
  decide

/-- Settles O5: OPC 1 selects UPDATE, whose LEN is the word's quotient by 256. -/
theorem lenIsTheUpper24Bits : Obligations.LenIsTheUpper24Bits :=
  fun _ h => decodeWord_update h

/-- Settles O57: the words without a payload computed, and the lines with a payload that fits 24 bits. -/
theorem assemblyLinesExpand : Obligations.AssemblyLinesExpand :=
  ⟨by decide, by decide, by decide, fun _ => rfl, fun _ hp => ⟨if_pos hp, if_pos hp⟩⟩

end Sys2Proof.Machine

/-! Absorb over whole blocks and Squeeze over any number of blocks, for every permutation (rules R101 to R107). -/

namespace Sys2Proof.Machine

/-! ## Absorb -/

/-- Absorb of whole blocks and a rest: one XOR and one permutation for each block, in order, and
the rest left over (R102, R103). -/
theorem absorb_flatten_append (P : Sponge → Sponge) {r : Nat} (S : Sponge) {blocks : List (List Byte)}
    {tail : List Byte} (hblocks : ∀ b ∈ blocks, b.length = r) (htail : tail.length < r) :
    absorb P r S (blocks.flatten ++ tail) =
      (blocks.foldl (fun X b => P (xorBlock X b)) S, tail.length) := by
  have hr : 1 ≤ r := Nat.one_le_of_lt htail
  induction blocks generalizing S with
  | nil => exact absorb_short P r S htail
  | cons block blocks ih =>
    obtain ⟨hblock, hrest⟩ := List.forall_mem_cons.mp hblocks
    rw [List.flatten_cons, List.append_assoc, absorb_block P hr S hblock, ih _ hrest, List.foldl_cons]

/-! ## Squeeze -/

/-- Any two numbers of turns that are enough give the same. -/
theorem squeezeLoop_fuel (P : Sponge → Sponge) {r : Nat} (hr : 1 ≤ r) {fuel fuel' left : Nat} (S : Sponge)
    (h : left ≤ fuel) (h' : left ≤ fuel') : squeezeLoop P r fuel left S = squeezeLoop P r fuel' left S := by
  induction fuel generalizing fuel' left S with
  | zero =>
    obtain rfl : left = 0 := Nat.le_zero.mp h
    cases fuel' <;> rfl
  | succ fuel ih =>
    cases fuel' with
    | zero =>
      obtain rfl : left = 0 := Nat.le_zero.mp h'
      rfl
    | succ fuel' =>
      rw [squeezeLoop, squeezeLoop, ih (P S) (fuel' := fuel') (by omega) (by omega)]

/-- More than one block: a block from the front of the state, one permutation, and the rest follows (R105). -/
theorem squeeze_block_append (P : Sponge → Sponge) {r m : Nat} (hr : 1 ≤ r) (hm : 0 < m) (S : Sponge) :
    squeeze P r (r + m) S =
      ((bytesLE S).take r ++ (squeeze P r m (P S)).1, (squeeze P r m (P S)).2) := by
  obtain ⟨fuel, hfuel⟩ : ∃ fuel, r + m = fuel + 1 := ⟨r + m - 1, by omega⟩
  have hturn : min r (r + m) = r := Nat.min_eq_left (Nat.le_add_right r m)
  rw [squeeze, squeeze, ← squeezeLoop_fuel P hr (P S) (fuel := fuel) (by omega) le_rfl]
  conv_lhs => rw [hfuel, squeezeLoop, ← hfuel, hturn]
  rw [if_neg (by omega), if_pos (by omega), Nat.add_sub_cancel_left]

/-- Byte `i` of the output as R107 names it: byte `i mod r` of the state after `i div r` permutations. -/
def outputByte (P : Sponge → Sponge) (r : Nat) (S : Sponge) (i : Nat) : Byte :=
  stateByte (P^[i / r] S) (i % r)

theorem outputByte_of_lt (P : Sponge → Sponge) {r i : Nat} (S : Sponge) (h : i < r) :
    outputByte P r S i = stateByte S i := by
  rw [outputByte, Nat.div_eq_of_lt h, Nat.mod_eq_of_lt h, Function.iterate_zero_apply]

/-- One block further on in the output is one permutation further on in the state. -/
theorem outputByte_add_left (P : Sponge → Sponge) {r : Nat} (hr : 1 ≤ r) (S : Sponge) (i : Nat) :
    outputByte P r S (r + i) = outputByte P r (P S) i := by
  rw [outputByte, Nat.add_div_left i hr, Nat.add_mod_left, Function.iterate_succ_apply, outputByte]

/-- Up to one block, the front of `Bytes_LE(S)` is the output. -/
theorem take_bytesLE_eq_map_outputByte (P : Sponge → Sponge) {r n : Nat} (S : Sponge) (hn : n ≤ r) (hmax : r ≤ 200) :
    (bytesLE S).take n = (List.range n).map (outputByte P r S) := by
  rw [bytesLE, ← List.map_take, List.take_range, Nat.min_eq_left (hn.trans hmax)]
  exact List.map_congr_left fun i hi => (outputByte_of_lt P S ((List.mem_range.mp hi).trans_le hn)).symm

/-- Squeeze in closed form: the first `n` bytes of the output, and one permutation for each block that another byte
follows (R107). -/
theorem squeeze_eq (P : Sponge → Sponge) {r : Nat} (hr : 1 ≤ r) (hmax : r ≤ 200) (n : Nat) (S : Sponge) :
    squeeze P r n S = ((List.range n).map (outputByte P r S), P^[(n - 1) / r] S) := by
  induction n using Nat.strong_induction_on generalizing S with
  | _ n ih =>
    by_cases hn : n ≤ r
    · rw [squeeze_oneBlock P hn, take_bytesLE_eq_map_outputByte P S hn hmax, Nat.div_eq_of_lt (by omega),
        Function.iterate_zero_apply]
    · obtain ⟨m, hm, rfl⟩ : ∃ m, 0 < m ∧ n = r + m := ⟨n - r, by omega, by omega⟩
      have hbytes : (List.range (r + m)).map (outputByte P r S) =
          (bytesLE S).take r ++ (List.range m).map (outputByte P r (P S)) := by
        rw [List.range_add, List.map_append, List.map_map, take_bytesLE_eq_map_outputByte P S le_rfl hmax]
        congr 1
        exact List.map_congr_left fun i _ => outputByte_add_left P hr S i
      have hcount : (r + m - 1) / r = (m - 1) / r + 1 := by
        rw [Nat.add_sub_assoc hm, Nat.add_div_left _ hr]
      rw [squeeze_block_append P hr hm, ih m (by omega), hbytes, hcount, Function.iterate_succ_apply]

/-- R107's count of permutations, `max(0, ceil(n / r) - 1)`, as one division. -/
theorem ceilDiv_sub_one {r : Nat} (hr : 1 ≤ r) (n : Nat) : (n + r - 1) / r - 1 = (n - 1) / r := by
  rcases n with _ | n
  case zero => rw [Nat.zero_add, Nat.div_eq_of_lt (by omega), Nat.zero_sub, Nat.zero_div]
  case succ =>
    rw [Nat.add_right_comm, Nat.add_sub_cancel, Nat.add_div_right n hr, Nat.succ_sub_one, Nat.add_sub_cancel]

/-! ## The statements -/

/-- Settles O23, by induction on the blocks. -/
theorem absorbFoldsOverWholeBlocks : Obligations.AbsorbFoldsOverWholeBlocks :=
  fun P _ S _ _ hblocks htail => absorb_flatten_append P S hblocks htail

/-- Settles O24, from the closed form of Squeeze. -/
theorem squeezeOutputsAndPermutations : Obligations.SqueezeOutputsAndPermutations := by
  intro P r n S hr hmax
  rw [squeeze_eq P hr hmax, ceilDiv_sub_one hr]
  refine ⟨by rw [List.length_map, List.length_range], fun i hi => ?_, rfl⟩
  rw [List.getElem?_map, List.getElem?_range hi, Option.map_some, outputByte]

/-- Settles O25: `OUT_BYTES` is at most `RATE`, so the output is within one block. -/
theorem digestSqueezeDoesNotPermute : Obligations.DigestSqueezeDoesNotPermute :=
  fun P v S => squeeze_oneBlock P (outBytes_le_rate v) S

end Sys2Proof.Machine

/-! UPDATE and the message: what one chunk does to S and BUF, that chunks add up, the message a state stands for, and
its digest (rules R130 to R142, R168). -/

namespace Sys2Proof.Machine

/-! ## Absorbing whole blocks and keeping the rest -/

/-- Less than a block: nothing is absorbed and everything is kept (R132). -/
theorem absorbKeep_short (P : Sponge → Sponge) {r : Nat} (S : Sponge) {data : List Byte} (h : data.length < r) :
    absorbKeep P r S data = (S, data) := by
  rw [absorbKeep_eq P (Nat.one_le_of_lt h), absorb_short P r S h, Nat.div_eq_of_lt h, Nat.zero_mul, List.drop_zero]

/-- What is kept, as R135 counts it: the last `|data| mod r` bytes. -/
theorem absorbKeep_eq_drop_mod (P : Sponge → Sponge) {r : Nat} (hr : 1 ≤ r) (S : Sponge) (data : List Byte) :
    absorbKeep P r S data = ((absorb P r S data).1, data.drop (data.length - data.length % r)) := by
  rw [absorbKeep_eq P hr, sub_mod_eq]

/-- The same in the terms of R140: the whole blocks are absorbed, the remainder is kept. -/
theorem absorbKeep_eq_wholeBlocks_remainder (P : Sponge → Sponge) {r : Nat} (hr : 1 ≤ r) (S : Sponge)
    (data : List Byte) : absorbKeep P r S data = ((absorb P r S (wholeBlocks r data)).1, remainder r data) := by
  have htail : (remainder r data).length < r := (length_remainder r data).trans_lt (Nat.mod_lt _ hr)
  have habsorbed := absorb_tail P hr S (length_wholeBlocks r data) htail
  rw [wholeBlocks_append_remainder] at habsorbed
  rw [absorbKeep_eq P hr, habsorbed, remainder]

/-- Whole blocks in front of what is absorbed and kept. -/
theorem absorbKeep_append_of_blocks (P : Sponge → Sponge) {r q : Nat} (hr : 1 ≤ r) (S : Sponge)
    {front : List Byte} (hfront : front.length = q * r) (data : List Byte) :
    absorbKeep P r S (front ++ data) = absorbKeep P r (absorb P r S front).1 data := by
  have hlen : (front ++ data).length / r * r = front.length + data.length / r * r := by
    rw [List.length_append, hfront, Nat.mul_comm q r, Nat.mul_add_div hr, Nat.add_mul, Nat.mul_comm r q]
  rw [absorbKeep_eq P hr, absorbKeep_eq P hr, absorb_append P hr q S front data hfront, hlen,
    List.drop_length_add_append]

/-- Going on from what was absorbed and kept is absorbing and keeping everything at once. -/
theorem absorbKeep_append (P : Sponge → Sponge) {r : Nat} (hr : 1 ≤ r) (S : Sponge) (data more : List Byte) :
    absorbKeep P r (absorbKeep P r S data).1 ((absorbKeep P r S data).2 ++ more) =
      absorbKeep P r S (data ++ more) := by
  rw [absorbKeep_eq_wholeBlocks_remainder P hr S data,
    ← absorbKeep_append_of_blocks P hr S (length_wholeBlocks r data), ← List.append_assoc,
    wholeBlocks_append_remainder]

/-! ## One chunk -/

/-- `s` after an UPDATE has taken the chunk `p` in ABSORBING and left `rest` on the command stream. -/
def State.takeChunk (s : State) (p rest : List Byte) : State :=
  { s with
    cmd := rest
    sponge := (absorbKeep permute (rate s.variant) s.sponge (s.buf ++ p)).1
    buf := (absorbKeep permute (rate s.variant) s.sponge (s.buf ++ p)).2 }

theorem exec_update_takes {s : State} (hp : s.phase = .absorbing) (hb : s.bufsz < rate s.variant)
    {p rest : List Byte} (hc : s.cmd = p ++ rest) : exec (.update p.length) s = .next (s.takeChunk p rest) :=
  execUpdate_takes hp hb hc

/-- Less than the room: the chunk is appended to the buffer (R132). -/
theorem State.takeChunk_short {s : State} {p : List Byte} (h : (s.buf ++ p).length < rate s.variant)
    (rest : List Byte) : s.takeChunk p rest = { s with buf := s.buf ++ p, cmd := rest } := by
  rw [State.takeChunk, absorbKeep_short permute s.sponge h]

theorem State.takeChunk_nil {s : State} (hb : s.bufsz < rate s.variant) (rest : List Byte) :
    s.takeChunk [] rest = { s with cmd := rest } := by
  rw [State.takeChunk_short (by rwa [List.append_nil]), List.append_nil]

/-- Two chunks are one chunk of all their bytes (R141). -/
theorem State.takeChunk_takeChunk (s : State) (p q between rest : List Byte) :
    (s.takeChunk p between).takeChunk q rest = s.takeChunk (p ++ q) rest := by
  have happend := absorbKeep_append permute (rate_pos s.variant) s.sponge (s.buf ++ p) q
  rw [List.append_assoc] at happend
  simp only [State.takeChunk, happend]

/-- BUFSZ after a chunk (R136). -/
theorem State.takeChunk_bufsz_lt (s : State) (p rest : List Byte) :
    (s.takeChunk p rest).bufsz < rate s.variant :=
  (length_absorbKeep permute s.variant s.sponge (s.buf ++ p)).trans_lt (Nat.mod_lt _ (rate_pos s.variant))

theorem State.Accepting.takeChunk {s : State} (ha : s.Accepting) (p rest : List Byte) :
    (s.takeChunk p rest).Accepting :=
  ⟨ha.noRst, ha.notPending, ha.digestTaken, ha.notFault⟩

/-! ## A sequence of chunks -/

/-- The step that takes an UPDATE word and the payload behind it. -/
theorem step_of_updateBytes {s : State} (ha : s.Accepting) (hp : s.phase = .absorbing)
    (hb : s.bufsz < rate s.variant) {c : List Byte} (hc : c.length < 2 ^ 24) (rest : List Byte) :
    step { s with cmd := updateBytes c ++ rest } = .next (s.takeChunk c rest) := by
  have hword : updateBytes c ++ rest = encode (.update c.length) ++ (c ++ rest) := List.append_assoc _ _ _
  have hstep := step_of_encode (s := { s with cmd := updateBytes c ++ rest })
    ⟨ha.noRst, ha.notPending, ha.digestTaken, ha.notFault⟩ (wellFormed_update.mpr hc) hword
  exact hstep.trans (exec_update_takes (s := { s with cmd := c ++ rest }) hp hb rfl)

/-- As many steps as UPDATE commands take their chunks as one chunk. -/
theorem runSteps_updates {chunks : List (List Byte)} (hlen : ∀ c ∈ chunks, c.length < 2 ^ 24) {s : State}
    (ha : s.Accepting) (hp : s.phase = .absorbing) (hb : s.bufsz < rate s.variant) (rest : List Byte) :
    runSteps chunks.length { s with cmd := chunks.flatMap updateBytes ++ rest } =
      .next (s.takeChunk chunks.flatten rest) := by
  induction chunks generalizing s with
  | nil => exact congrArg Host.Outcome.next (State.takeChunk_nil hb rest).symm
  | cons c chunks ih =>
    obtain ⟨hc, hchunks⟩ := List.forall_mem_cons.mp hlen
    have hfirst := step_of_updateBytes ha hp hb hc (chunks.flatMap updateBytes ++ rest)
    have hlater := ih hchunks (ha.takeChunk c (chunks.flatMap updateBytes ++ rest)) hp (s.takeChunk_bufsz_lt c _)
    rw [List.flatMap_cons, List.append_assoc, List.length_cons, runSteps_succ hfirst, List.flatten_cons,
      ← s.takeChunk_takeChunk c chunks.flatten (chunks.flatMap updateBytes ++ rest)]
    exact hlater

/-! ## The message a state stands for -/

/-- A state stands for `m` when S and BUF are what absorbing `m` from zero and keeping its rest leaves (R140). -/
theorem State.represents_iff {s : State} {m : List Byte} :
    s.Represents m ↔
      s.phase = .absorbing ∧ (s.sponge, s.buf) = absorbKeep permute (rate s.variant) zeroSponge m := by
  rw [absorbKeep_eq_wholeBlocks_remainder permute (rate_pos s.variant), Prod.mk.injEq]
  exact ⟨fun h => ⟨h.phaseAbsorbing, h.absorbed, h.kept⟩, fun ⟨hp, hs, hb⟩ => ⟨hp, hs, hb⟩⟩

theorem State.Fresh.represents_nil {s : State} (h : s.Fresh) : s.Represents [] := by
  have hzero : s.sponge = zeroSponge :=
    sponge_ext fun j hj => (h.lanesZero j hj).trans (lane_zeroSponge j).symm
  rw [State.represents_iff, absorbKeep_short permute zeroSponge (data := []) (rate_pos s.variant)]
  exact ⟨h.phaseAbsorbing, by rw [hzero, h.bufEmpty]⟩

section Represents

variable {s : State} {m : List Byte} (h : s.Represents m)
include h

theorem State.Represents.bufsz_lt : s.bufsz < rate s.variant := by
  rw [State.bufsz, h.kept, length_remainder]
  exact Nat.mod_lt _ (rate_pos s.variant)

/-- A chunk is appended to the message. -/
theorem State.Represents.takeChunk (p rest : List Byte) : (s.takeChunk p rest).Represents (m ++ p) := by
  obtain ⟨hp, hmessage⟩ := State.represents_iff.mp h
  have happend := absorbKeep_append permute (rate_pos s.variant) zeroSponge m p
  rw [← hmessage] at happend
  exact State.represents_iff.mpr ⟨hp, happend⟩

/-- After the final block, S is what absorbing `pad(m)` from zero leaves (R168). -/
theorem State.Represents.finalSponge_eq :
    finalSponge permute s.variant s.sponge s.buf =
      absorbFromZero permute (rate s.variant) (padMessage (rate s.variant) (pad s.variant) m) := by
  have hr := rate_pos s.variant
  rw [finalSponge, absorbFromZero, padMessage_eq hr, absorb_append permute hr _ _ _ _ (length_wholeBlocks _ m),
    h.absorbed, h.kept, absorbFromZero]

end Represents

/-! ## The digest -/

/-- FINALIZE in ABSORBING with a host that takes every digest byte: all of them are received at once. -/
theorem exec_finalize_of_always {s : State} (hp : s.phase = .absorbing) (htaking : s.taking = .always)
    (hdigest : s.digest = []) :
    exec .finalize s = .next { s with
      sponge := finalSponge permute s.variant s.sponge s.buf
      buf := []
      phase := .finalized
      received := s.received ++
        (bytesLE (finalSponge permute s.variant s.sponge s.buf)).take (outBytes s.variant)
      digest := [] } := by
  rw [exec, execFinalize_absorbing hp, State.outWrite_always (by exact htaking), hdigest, List.nil_append]

theorem length_messageDigest (v : Variant) (m : List Byte) : (messageDigest v m).length = outBytes v := by
  rw [messageDigest, List.length_take, length_bytesLE]
  exact Nat.min_eq_left ((outBytes_le_rate v).trans (rate_le_stateBytes v))

/-! ## The statements -/

/-- Settles O33: a state that stands for a message is one that absorbed and kept it, and a chunk goes on from there. -/
theorem updateAppendsToTheMessage : Obligations.UpdateAppendsToTheMessage :=
  ⟨fun _ h => h.represents_nil, fun s _ p rest h hc =>
    ⟨s.takeChunk p rest, exec_update_takes h.phaseAbsorbing h.bufsz_lt hc, h.takeChunk p rest, rfl, rfl, rfl, rfl⟩⟩

/-- Settles O29: the buffer and the chunk are one string, of which either the completed block comes first or the
buffer is nothing. -/
theorem updateAbsorbsBlocksAndKeepsTheTail : Obligations.UpdateAbsorbsBlocksAndKeepsTheTail := by
  constructor
  · intro s p rest hp _ hb hroom hc
    have hr := rate_pos s.variant
    have hblock : (s.buf ++ p.take (rate s.variant - s.bufsz)).length = rate s.variant := by
      rw [List.length_append, List.length_take, Nat.min_eq_left hroom, Nat.add_sub_of_le hb.le]
    have hsplit : s.buf ++ p = (s.buf ++ p.take (rate s.variant - s.bufsz)) ++ p.drop (rate s.variant - s.bufsz) := by
      rw [List.append_assoc, List.take_append_drop]
    have hcursor : rate s.variant - s.bufsz + (p.length - (rate s.variant - s.bufsz) -
        (p.length - (rate s.variant - s.bufsz)) % rate s.variant) =
        p.length - (p.length - (rate s.variant - s.bufsz)) % rate s.variant := by
      have := Nat.mod_le (p.length - (rate s.variant - s.bufsz)) (rate s.variant)
      omega
    refine ⟨hblock, ?_⟩
    rw [exec_update_takes hp hb hc, State.takeChunk, hsplit, absorbKeep_block permute hr _ hblock,
      absorb_oneBlock permute hr _ hblock, absorbKeep_eq_drop_mod permute hr, List.length_drop, List.drop_drop, hcursor]
  · intro s p rest hp hnil hc
    have hb : s.bufsz < rate s.variant := by
      rw [State.bufsz, hnil]
      exact rate_pos s.variant
    rw [exec_update_takes hp hb hc, State.takeChunk, hnil, List.nil_append,
      absorbKeep_eq_drop_mod permute (rate_pos s.variant)]

/-- Settles O32: a payload that is taken leaves a count modulo RATE, and every other answer leaves BUF as it was. -/
theorem updateKeepsBufszBelowRate : Obligations.UpdateKeepsBufszBelowRate := by
  intro s t len hb h
  rcases phase_cases s.phase with hp | hp | hp
  · rcases exec_update_cases hp h with ⟨-, rfl⟩ | ⟨p, rest, -, -, rfl⟩
    · exact hb
    · exact (length_absorbChunk permute s.variant s.sponge hb p).trans_lt (Nat.mod_lt _ (rate_pos s.variant))
  · cases (execUpdate_finalized hp len).symm.trans h
    exact hb
  · cases (execUpdate_fault hp len).symm.trans h
    exact hb

/-- Settles O34: both sequences take the same bytes as one chunk. -/
theorem chunkingDoesNotMatter : Obligations.ChunkingDoesNotMatter := by
  intro s chunks1 chunks2 rest ha hp hb h1 h2 hsame
  refine ⟨s.takeChunk chunks1.flatten rest, runSteps_updates h1 ha hp hb rest, ?_, rfl, ha.takeChunk _ _⟩
  rw [hsame]
  exact runSteps_updates h2 ha hp hb rest

/-- Settles O39: the digest is the front of the state after the final block, and the host takes all of it. -/
theorem finalizeOutputsTheMessageDigest : Obligations.FinalizeOutputsTheMessageDigest := by
  intro s m h htaking hdigest
  exact ⟨_, exec_finalize_of_always h.phaseAbsorbing htaking hdigest, by rw [h.finalSponge_eq, messageDigest],
    length_messageDigest s.variant m, rfl, rfl⟩

/-- Settles O27: steps 1 to 5 of UPDATE write nothing for an empty chunk, whatever BUFSZ is. -/
theorem updateOfNothingIsANoOp : Obligations.UpdateOfNothingIsANoOp :=
  fun _ hp => execUpdate_chunk (p := []) hp rfl

/-- Settles O28: the buffer and the chunk together are less than a block. -/
theorem updateBelowRoomAppends : Obligations.UpdateBelowRoomAppends := by
  intro s p rest hp _ hroom hc
  have hlen : (s.buf ++ p).length = s.bufsz + p.length := List.length_append
  refine ⟨?_, hlen, by omega⟩
  rw [exec_update_takes hp (by omega) hc, State.takeChunk_short (by omega)]

/-- Settles O35: in each phase UPDATE uses of the variant its RATE at most. -/
theorem updateReadsOnlyTheRate : Obligations.UpdateReadsOnlyTheRate := by
  intro s t len v hrate h
  rcases phase_cases s.phase with hp | hp | hp
  · rcases exec_update_cases hp h with ⟨hc, rfl⟩ | ⟨p, rest, rfl, hc, rfl⟩
    · exact execUpdate_waits (s := { s with variant := v }) hp hc
    · rw [← hrate]
      exact execUpdate_chunk (s := { s with variant := v }) hp hc
  · cases (execUpdate_finalized hp len).symm.trans h
    exact execUpdate_finalized (s := { s with variant := v }) hp len
  · cases (execUpdate_fault hp len).symm.trans h
    exact execUpdate_fault (s := { s with variant := v }) hp len

end Sys2Proof.Machine

/-! FINALIZE: the bytes of the final block, and what one FINALIZE in ABSORBING answers (rules R160 to R166). -/

namespace Sys2Proof.Machine

/-! ## The final block, byte by byte -/

/-- Zero filling leaves the bytes of the buffer where they are (R161). -/
theorem getElem?_zeroFill_of_lt (r : Nat) {buf : List Byte} {k : Nat} (h : k < buf.length) :
    (zeroFill r buf)[k]? = buf[k]? :=
  List.getElem?_append_left h

/-- The unused tail is zero after zero filling (R161). -/
theorem getElem?_zeroFill_of_ge {r : Nat} {buf : List Byte} {k : Nat} (h : buf.length ≤ k) (hr : k < r) :
    (zeroFill r buf)[k]? = some 0x00#8 := by
  rw [zeroFill, List.getElem?_append_right h, List.getElem?_replicate_of_lt (by omega)]

/-- The end mark touches no byte but the last (R163). -/
theorem getElem?_markEnd_of_ne {r k : Nat} (block : List Byte) (h : k ≠ r - 1) :
    (markEnd r block)[k]? = block[k]? :=
  List.getElem?_set_ne h.symm

/-- The end mark is ORed onto the last byte (R163). -/
theorem getElem?_markEnd_last {r : Nat} {block : List Byte} {b : Byte} (h : block[r - 1]? = some b) :
    (markEnd r block)[r - 1]? = some (b ||| 0x80#8) := by
  obtain ⟨hlt, -⟩ := List.getElem?_eq_some_iff.mp h
  rw [markEnd, List.getElem?_set_self hlt, List.getD_eq_getElem?_getD, h, Option.getD_some]

/-- The zero-filled buffer with `PAD` put in: `PAD` at index BUFSZ (R162). -/
theorem getElem?_padded_self {r : Nat} (p : Byte) {buf : List Byte} (h : buf.length < r) :
    ((zeroFill r buf).set buf.length p)[buf.length]? = some p :=
  List.getElem?_set_self (by rwa [length_zeroFill h.le])

/-- Apart from index BUFSZ and the last, the final block is the zero-filled buffer (R162, R163). -/
theorem getElem?_finalBlock_of_ne {r k : Nat} (p : Byte) {buf : List Byte} (hpad : k ≠ buf.length)
    (hend : k ≠ r - 1) : (finalBlock r p buf)[k]? = (zeroFill r buf)[k]? := by
  rw [finalBlock, getElem?_markEnd_of_ne _ hend, List.getElem?_set_ne hpad.symm]

/-- Settles O36: a byte of the final block is one of BUF, a filled zero, PAD or the end mark, by where it stands. -/
theorem finalBlockContents : Obligations.FinalBlockContents := by
  intro r p buf hb
  have hpad := getElem?_padded_self p hb
  refine ⟨fun k hk => getElem?_zeroFill_of_lt r hk, fun k hk hr => getElem?_zeroFill_of_ge hk hr,
    length_finalBlock p hb.le, fun k hk => ?inBuf, fun h => ?atPad, fun k hk hr => ?between, fun h => ?atEnd,
    fun h => ?padAtEnd⟩
  case inBuf =>
    rw [getElem?_finalBlock_of_ne p (by omega) (by omega), getElem?_zeroFill_of_lt r hk]
  case atPad => rw [finalBlock, getElem?_markEnd_of_ne _ (by omega), hpad]
  case between =>
    rw [getElem?_finalBlock_of_ne p (by omega) (by omega), getElem?_zeroFill_of_ge (by omega) (by omega)]
  case atEnd =>
    have hzero : ((zeroFill r buf).set buf.length p)[r - 1]? = some 0x00#8 := by
      rw [List.getElem?_set_ne (by omega), getElem?_zeroFill_of_ge (by omega) (by omega)]
    exact getElem?_markEnd_last hzero
  case padAtEnd =>
    have hlast : ((zeroFill r buf).set buf.length p)[r - 1]? = some p := by rw [← h, hpad]
    exact getElem?_markEnd_last hlast

/-! ## One FINALIZE in ABSORBING -/

/-- The front of `Bytes_LE(S)`, byte by byte (R54, R106). -/
theorem getElem?_take_bytesLE (S : Sponge) {n i : Nat} (hi : i < n) (hn : n ≤ 200) :
    ((bytesLE S).take n)[i]? = some (stateByte S i) := by
  rw [List.getElem?_take_of_lt hi, getElem?_bytesLE S (hi.trans_le hn)]

/-- Settles O37: the final block is absorbed by one permutation, and the digest is the front of that state. -/
theorem finalizeResult : Obligations.FinalizeResult := by
  intro s hinv hp
  have hout : outBytes s.variant ≤ 200 := (outBytes_le_rate _).trans (rate_le_stateBytes _)
  have hbuf : s.buf.length ≤ rate s.variant := hinv.bufBound.le
  have herr : s.err = .none := hinv.err_none (by simp [hp])
  refine ⟨_, _, execFinalize_absorbing hp, ?sponge, ?length, fun i hi => ?byte, State.outWrite_observed _ _,
    State.outWrite_phase _ _, State.outWrite_buf _ _, congrArg List.length (State.outWrite_buf _ _),
    (State.outWrite_err _ _).trans herr⟩
  case sponge => rw [State.outWrite_sponge, finalSponge_eq permute s.variant s.sponge hbuf]
  case length => rw [List.length_take, length_bytesLE, Nat.min_eq_left hout]
  case byte => rw [State.outWrite_sponge, getElem?_take_bytesLE _ hi hout]

end Sys2Proof.Machine

/-! RESET: what a cleared session is, and the hash of one message on a fresh block (rules R190 to R192). -/

namespace Sys2Proof.Machine

/-! ## The session cleared -/

theorem exec_reset_clears {s : State} (hp : s.phase ≠ .fault) : exec .reset s = .next s.clearSession :=
  execReset_clears hp

/-- A fresh session has nothing to clear (R191). -/
theorem State.Fresh.clearSession_eq {s : State} (h : s.Fresh) : s.clearSession = s := by
  have hzero : s.sponge = zeroSponge :=
    sponge_ext fun j hj => (h.lanesZero j hj).trans (lane_zeroSponge j).symm
  rw [State.clearSession, ← hzero, ← h.bufEmpty, ← h.phaseAbsorbing]

theorem State.clearSession_clearSession (s : State) : s.clearSession.clearSession = s.clearSession := rfl

theorem State.Accepting.clearSession {s : State} (ha : s.Accepting) : s.clearSession.Accepting :=
  ⟨ha.noRst, ha.notPending, ha.digestTaken, nofun⟩

/-- Which bytes stand on the command stream does not matter to a block that takes the next command. -/
theorem State.Accepting.set_cmd {s : State} (ha : s.Accepting) (bytes : List Byte) :
    ({ s with cmd := bytes } : State).Accepting :=
  ⟨ha.noRst, ha.notPending, ha.digestTaken, ha.notFault⟩

/-- Between commands and without a fault, `rst` that leaves the command stream as it is only clears the session
(R192, R260). -/
theorem State.Accepting.applyRst_hostRst {s : State} (ha : s.Accepting) (herr : s.err = .none) :
    (s.hostRst s.cmd).applyRst s.cmd = s.clearSession := by
  simp only [State.applyRst, State.hostRst, State.clearSession, ← herr, ← ha.notPending, ← ha.digestTaken,
    ← ha.noRst]

/-! ## The hash of one message -/

/-- The step that takes a RESET word outside FAULT. -/
theorem step_of_reset {s : State} (ha : s.Accepting) {rest : List Byte} (hc : s.cmd = encode .reset ++ rest) :
    step s = .next (State.clearSession { s with cmd := rest }) :=
  (step_of_encode ha rfl hc).trans (exec_reset_clears ha.notFault)

/-- The step that takes a FINALIZE word at a state that stands for `m`, the host taking every digest byte: the
digest of `m` is received (R168). -/
theorem step_of_finalize {s : State} {m : List Byte} (ha : s.Accepting) (h : s.Represents m)
    (htaking : s.taking = .always) {rest : List Byte} (hc : s.cmd = encode .finalize ++ rest) :
    ∃ t, step s = .next t ∧ t.received = s.received ++ messageDigest s.variant m ∧
      t.cmd = rest ∧ t.phase = .finalized ∧ t.Accepting := by
  have hrun := exec_finalize_of_always (s := { s with cmd := rest }) h.phaseAbsorbing htaking ha.digestTaken
  refine ⟨_, (step_of_encode ha rfl hc).trans hrun, ?digest, rfl, rfl, ⟨ha.noRst, ha.notPending, rfl, nofun⟩⟩
  case digest => rw [h.finalSponge_eq, messageDigest]

/-- On a fresh block the words UPDATE(m), FINALIZE give the digest of `m`. -/
theorem runSteps_update_finalize {s : State} {m rest : List Byte} (hf : s.Fresh) (ha : s.Accepting)
    (htaking : s.taking = .always) (hm : m.length < 2 ^ 24)
    (hc : s.cmd = updateBytes m ++ encode .finalize ++ rest) :
    ∃ t, runSteps 2 s = .next t ∧ t.received = s.received ++ messageDigest s.variant m ∧
      t.cmd = rest ∧ t.phase = .finalized ∧ t.Accepting := by
  have hempty := hf.represents_nil
  have hupdate : step s = .next (s.takeChunk m (encode .finalize ++ rest)) := by
    have hstep := step_of_updateBytes ha hf.phaseAbsorbing hempty.bufsz_lt hm (encode .finalize ++ rest)
    rwa [← List.append_assoc, ← hc] at hstep
  obtain ⟨t, hfinalize, ht⟩ := step_of_finalize (ha.takeChunk m _) (hempty.takeChunk m _) htaking rfl
  exact ⟨t, (runSteps_succ hupdate 1).trans (runSteps_succ hfinalize 0), ht⟩

/-! ## The statements -/

/-- Settles O42: RESET leaves a fresh block that still accepts commands, and the rest is the hash on a fresh block. -/
theorem resetThenHashIsAFreshHash : Obligations.ResetThenHashIsAFreshHash := by
  refine ⟨fun s m rest hinv ha htaking hm hc => ?used, fun s m rest => runSteps_update_finalize,
    fun s t u hinv ha ht hu => ?rst⟩
  case used =>
    have hreset := step_of_reset ha (rest := updateBytes m ++ encode .finalize ++ rest)
      (by simp only [hc, List.append_assoc])
    have hfresh := State.clearSession_fresh (s := { s with cmd := updateBytes m ++ encode .finalize ++ rest })
      (hinv.err_none ha.notFault)
    obtain ⟨t, hrun, ht⟩ := runSteps_update_finalize hfresh (ha.set_cmd _).clearSession htaking hm rfl
    exact ⟨t, (runSteps_succ hreset 2).trans hrun, ht⟩
  case rst =>
    cases (exec_reset_clears ha.notFault).symm.trans ht
    cases (step_of_rst (s := s.hostRst s.cmd) rfl).symm.trans hu
    exact (ha.applyRst_hostRst (hinv.err_none ha.notFault)).symm

/-- Settles O41: outside FAULT RESET clears the session, which is nothing on a fresh one and once and for all on any. -/
theorem resetCornerCases : Obligations.ResetCornerCases := by
  refine fun s => ⟨fun hf => ?fresh, fun t ht => ?twice, fun hp => exec_of_fault hp .reset⟩
  case fresh =>
    rw [exec_reset_clears (by simp [hf.phaseAbsorbing]), hf.clearSession_eq]
  case twice =>
    by_cases hp : s.phase = .fault
    · cases (exec_of_fault hp .reset).symm.trans ht
      exact ht
    · cases (exec_reset_clears hp).symm.trans ht
      rw [exec_reset_clears (by simp), State.clearSession_clearSession]

/-- Settles O40: RESET outside FAULT is the session cleared, and `ERR` was 0 already. -/
theorem resetCommandMakesFresh : Obligations.ResetCommandMakesFresh := by
  intro s hinv hp
  have hfresh := State.clearSession_fresh (hinv.err_none hp)
  exact ⟨s.clearSession, exec_reset_clears hp, hfresh, hfresh.status_eq_zero, rfl⟩

end Sys2Proof.Machine

/-! The step mappings of Keccak-f[1600] lane by lane (rules R200 to R202). -/

namespace Sys2Proof.Machine

/-! ## Rotation -/

/-- The bits below `n` are the top bits of `v`, those from `n` on its low bits moved up (R200). -/
theorem getLsbD_rot (v : Lane) {n z : Nat} (hn : n < 64) (hz : z < 64) :
    (rot v n).getLsbD z = v.getLsbD ((z + (64 - n)) % 64) := by
  rw [rot, BitVec.getLsbD_or, BitVec.getLsbD_shiftLeft, BitVec.getLsbD_ushiftRight]
  by_cases hzn : z < n
  · have hwrap : (z + (64 - n)) % 64 = 64 - n + z := by omega
    simp [hzn, hwrap]
  · have hmove : (z + (64 - n)) % 64 = z - n := by omega
    have hout : v.getLsbD (64 - n + z) = false := BitVec.getLsbD_of_ge v _ (by omega)
    simp [hzn, hz, hmove, hout]

/-! ## Coordinates mod 5 -/

theorem laneXY_congr (A : Sponge) {x x' y y' : Nat} (hx : x % 5 = x' % 5) (hy : y % 5 = y' % 5) :
    laneXY A x y = laneXY A x' y' := by
  rw [laneXY, laneXY, hx, hy]

theorem rotationOffset_congr {x x' y y' : Nat} (hx : x % 5 = x' % 5) (hy : y % 5 = y' % 5) :
    rotationOffset x y = rotationOffset x' y' := by
  rw [rotationOffset, rotationOffset, hx, hy]

theorem columnParity_map (f : Nat → Lane) (x : Nat) : columnParity ([0, 1, 2, 3, 4].map f) x = f (x % 5) := by
  have hx : x % 5 < 5 := Nat.mod_lt _ (by decide)
  rw [columnParity]
  interval_cases x % 5 <;> rfl

/-! ## The step mappings -/

/-- `C[x]` is the XOR of the five lanes of column `x` (R201). -/
theorem columnParity_columnParities (A : Sponge) (x : Nat) :
    columnParity (columnParities A) x =
      laneXY A x 0 ^^^ laneXY A x 1 ^^^ laneXY A x 2 ^^^ laneXY A x 3 ^^^ laneXY A x 4 := by
  rw [columnParities, columnParity_map]
  simp only [laneXY, Nat.mod_mod]

/-- `D[x]` is `C[x-1] ^ rot(C[x+1], 1)` (R201). -/
theorem columnParity_thetaEffects (C : List Lane) (x : Nat) :
    columnParity (thetaEffects C) x = columnParity C (x + 4) ^^^ rot (columnParity C (x + 1)) 1 := by
  rw [thetaEffects, columnParity_map]
  simp only [columnParity, Nat.mod_add_mod]

theorem laneXY_theta (A : Sponge) (x y : Nat) :
    laneXY (theta A) x y = laneXY A x y ^^^ columnParity (thetaEffects (columnParities A)) x := by
  rw [theta, laneXY_tabulateXY]
  simp only [laneXY, columnParity, Nat.mod_mod]

/-- The lane `B[y, 2x+3y]` is read from column `y + 3(2x + 3y)`, which is `x` mod 5. -/
theorem laneXY_rhoPi (A : Sponge) (x y : Nat) :
    laneXY (rhoPi A) y (2 * x + 3 * y) = rot (laneXY A x y) (rotationOffset x y) := by
  have hcol : (y % 5 + 3 * ((2 * x + 3 * y) % 5)) % 5 = x % 5 := by omega
  have hrow : y % 5 % 5 = y % 5 := Nat.mod_mod y 5
  rw [rhoPi, laneXY_tabulateXY, laneXY_congr A hcol hrow, rotationOffset_congr hcol hrow]

theorem laneXY_chi (A : Sponge) (x y : Nat) :
    laneXY (chi A) x y = laneXY A x y ^^^ (~~~(laneXY A (x + 1) y) &&& laneXY A (x + 2) y) := by
  rw [chi, laneXY_tabulateXY]
  simp only [laneXY, Nat.mod_mod, Nat.mod_add_mod]

theorem laneXY_iota (rc : Lane) (A : Sponge) {x y : Nat} (hx : x < 5) (hy : y < 5) :
    laneXY (iota rc A) x y = if x = 0 ∧ y = 0 then laneXY A x y ^^^ rc else laneXY A x y := by
  have hj : x % 5 + 5 * (y % 5) < 25 := by omega
  rw [laneXY, iota, lane_setLane _ _ _ hj]
  by_cases h0 : x = 0 ∧ y = 0
  · obtain ⟨rfl, rfl⟩ := h0
    rfl
  · rw [if_neg (by omega), if_neg h0, laneXY]

/-! ## The statement -/

/-- Settles O26: rotation bit by bit, then each step mapping by its own lemma. -/
theorem keccakStepMappings : Obligations.KeccakStepMappings := by
  refine ⟨fun v n z hn hz => getLsbD_rot v hn hz, fun A rc x y hx hy =>
    ⟨?theta, laneXY_rhoPi A x y, laneXY_chi A x y, laneXY_iota rc A hx hy⟩⟩
  case theta =>
    rw [laneXY_theta, columnParity_thetaEffects, columnParity_columnParities, columnParity_columnParities]

end Sys2Proof.Machine

/-! Exceptions: every step and every command answers, what a step into FAULT writes, what FAULT keeps, and `rst`
(rules R222 to R226, R230, R260, R267). -/

namespace Sys2Proof.Machine

/-! ## Every step answers -/

/-- Every command answers, in every phase. -/
theorem exec_answers (i : Instr) (s : State) : ∃ t, exec i s = .next t := by
  rcases phase_cases s.phase with hp | hp | hp
  · cases i with
    | update len =>
      by_cases hc : s.cmd.length < len
      · exact ⟨_, execUpdate_waits hp hc⟩
      · have hlen : (s.cmd.take len).length = len := List.length_take_of_le (Nat.le_of_not_lt hc)
        have htakes := execUpdate_chunk hp (List.take_append_drop len s.cmd).symm
        rw [hlen] at htakes
        exact ⟨_, htakes⟩
    | finalize => exact ⟨_, execFinalize_absorbing hp⟩
    | reset => exact ⟨_, exec_reset_clears (by simp [hp])⟩
  · by_cases hi : i = .reset
    · subst hi
      exact ⟨_, exec_reset_clears (by simp [hp])⟩
    · exact ⟨_, exec_of_finalized hp hi⟩
  · exact ⟨s, exec_of_fault hp i⟩

theorem step_answers (s : State) : ∃ t, step s = .next t := by
  cases hf : fetch s with
  | settle t => exact ⟨t, step_of_settle hf⟩
  | run i t =>
    rw [step_of_run hf]
    exact exec_answers i t

/-! ## The step into FAULT -/

/-- A command enters FAULT only in FINALIZED, and then by raising USE_AFTER_FINAL. -/
theorem exec_enters_fault {i : Instr} {s t : State} (hp : s.phase ≠ .fault) (h : exec i s = .next t)
    (ht : t.phase = .fault) : s.phase = .finalized ∧ t = s.raise .useAfterFinal := by
  rcases exec_cases h with ⟨hfault, -⟩ | ⟨hfinal, -, rfl⟩ | ⟨-, -, rfl⟩ | ⟨len, -, habs, -, rfl⟩ |
    ⟨p, rest, -, habs, -, rfl⟩ | ⟨-, -, rfl⟩
  · exact absurd hfault hp
  · exact ⟨hfinal, rfl⟩
  · cases ht
  · exact absurd ht hp
  · exact absurd ht hp
  · rw [State.outWrite_phase] at ht
    cases ht

/-- A step enters FAULT by taking a word and raising one of the two codes, and writes nothing else (R222). An UPDATE
that waits does not raise: it was accepted in ABSORBING. -/
theorem step_enters_fault {s t : State} (hinv : s.Inv) (hp : s.phase ≠ .fault) (h : step s = .next t)
    (ht : t.phase = .fault) :
    ∃ rest code, (code = .illegalCmd ∨ code = .useAfterFinal) ∧ t = State.raise { s with cmd := rest } code := by
  rcases step_cases h with ⟨stream, -, rfl⟩ | ⟨-, -, rfl⟩ | ⟨-, -, hfault, -⟩ | ⟨-, -, -, -, -, rfl⟩ |
    ⟨why, rest, -, -, -, -, -, rfl⟩ | ⟨i, rest, -, -, -, -, -, hrun⟩ | ⟨len, -, -, -, hl, hrun⟩
  · cases ht
  · rw [State.hostTake_phase] at ht
    exact absurd ht hp
  · exact absurd hfault hp
  · exact absurd ht hp
  · exact ⟨rest, .illegalCmd, .inl rfl, rfl⟩
  · obtain ⟨-, hraise⟩ := exec_enters_fault (s := { s with cmd := rest }) hp hrun ht
    exact ⟨rest, .useAfterFinal, .inr rfl, hraise⟩
  · obtain ⟨hfinal, -⟩ := exec_enters_fault (s := { s with pending := none }) hp hrun ht
    obtain ⟨habs, -⟩ := hinv.pendingOk len hl
    cases hfinal.symm.trans habs

/-! ## Standing in FAULT -/

/-- While `rst` is not applied no number of steps changes a state in FAULT (R226). -/
theorem runSteps_of_fault {s : State} (hr : s.rst = none) (hd : s.digest = []) (hp : s.phase = .fault) (n : Nat) :
    runSteps n s = .next s :=
  runSteps_of_fixed (step_of_fault hr hd hp) n

/-- In FINALIZED the word of any command but RESET is taken and raises USE_AFTER_FINAL, and the block stands there
however many steps follow: the bytes after the word are never taken (R225, R226). -/
theorem runSteps_useAfterFinal {s : State} (ha : s.Accepting) (hp : s.phase = .finalized) {i : Instr}
    (hwf : i.wellFormed = true) (hi : i ≠ .reset) {rest : List Byte} (hc : s.cmd = encode i ++ rest) (n : Nat) :
    runSteps (n + 1) s = .next { s with cmd := rest, phase := .fault, err := .useAfterFinal } := by
  have hraise : step s = .next (State.raise { s with cmd := rest } .useAfterFinal) :=
    (step_of_encode ha hwf hc).trans (exec_of_finalized (s := { s with cmd := rest }) hp hi)
  rw [runSteps_succ hraise]
  exact runSteps_of_fault (s := State.raise { s with cmd := rest } .useAfterFinal) ha.noRst ha.digestTaken rfl n

/-- After `rst` the block takes the next command word (R260). -/
theorem State.applyRst_accepting (s : State) (stream : List Byte) : (s.applyRst stream).Accepting :=
  ⟨rfl, rfl, rfl, nofun⟩

/-! ## The statements -/

/-- Settles O43: UPDATE of any LEN and FINALIZE are the commands other than RESET. -/
theorem useAfterFinalFaults : Obligations.UseAfterFinalFaults := by
  refine fun s rest ha hp => ⟨fun len hlen hc n => ?update, fun hc n => ?finalize⟩
  case update => exact runSteps_useAfterFinal ha hp (i := .update len) (wellFormed_update.mpr hlen) nofun hc n
  case finalize => exact runSteps_useAfterFinal ha hp (i := .finalize) rfl nofun hc n

/-- Settles O44: the step is one `raise` at the state with its word taken, and STATUS is read back from the invariant
of the state after it. -/
theorem faultsArePrecise : Obligations.FaultsArePrecise := by
  intro s t hinv hp h ht
  obtain ⟨hfields, -⟩ := statusFields
  obtain ⟨hphase, -, hbufsz, herr, -⟩ := hfields t (step_keeps_inv hinv h)
  obtain ⟨rest, code, hcode, rfl⟩ := step_enters_fault hinv hp h ht
  refine ⟨rfl, rfl, rfl, rfl, hphase, hbufsz, ?code⟩
  case code =>
    rcases hcode with rfl | rfl
    · exact .inl ⟨herr, rfl⟩
    · exact .inr ⟨herr, rfl⟩

/-- Settles O45: no digest byte waits in FAULT, so a step is settled there unless `rst` comes first. -/
theorem faultIsSticky : Obligations.FaultIsSticky := by
  refine fun s hinv hp => ⟨fun hgood => hgood.accepting.notFault hp, fun hr => ⟨fun n => ?stands, exec_of_fault hp⟩,
    fun stream => ⟨_, step_of_rst rfl, rfl, rfl⟩⟩
  case stands => exact runSteps_of_fault hr (hinv.digest_nil_of_fault hp) hp n

/-- Settles O14: the step is `applyRst`, which leaves a fresh block that accepts commands. -/
theorem rstMakesTheBlockFresh : Obligations.RstMakesTheBlockFresh := by
  intro s stream hr
  have hfresh := s.applyRst_fresh stream
  exact ⟨s.applyRst stream, step_of_rst hr, hfresh, s.applyRst_accepting stream, hfresh.status_eq_zero, rfl, rfl, rfl,
    rfl, rfl⟩

/-- Settles O18: a settled step is a next state, and a command answers in every phase. -/
theorem everyStepAnswers : Obligations.EveryStepAnswers :=
  ⟨step_answers, exec_answers⟩

end Sys2Proof.Machine

/-! Reset and hazards: the host's moves between two steps, a command whose bytes are all there, and the ends of a run
(rules R264, R268, R269, R271). -/

namespace Sys2Proof.Machine

/-! ## The host's moves -/

/-- The invariant does not speak of which digest bytes the host takes. -/
theorem State.Inv.hostWilling {s : State} (h : s.Inv) (taking : Taking) : (s.hostWilling taking).Inv :=
  ⟨h.bufBound, h.finalizedEmpty, h.errExact, h.pendingOk, h.digestOk⟩

/-- The invariant does not speak of `rst` before the step that carries it out. -/
theorem State.Inv.hostRst {s : State} (h : s.Inv) (stream : List Byte) : (s.hostRst stream).Inv :=
  ⟨h.bufBound, h.finalizedEmpty, h.errExact, h.pendingOk, h.digestOk⟩

/-! ## A command with all its bytes there -/

/-- A command that is not refused for its phase, its payload next on the stream and the host taking every digest byte:
it takes that payload and nothing more, and the block takes the next command (R268, R269). -/
theorem exec_completes {s : State} (ha : s.Accepting) {i : Instr} (hphase : s.phase = .absorbing ∨ i = .reset)
    (htaking : s.taking = .always) {payload rest : List Byte} (hlen : payload.length + 4 = commandLength i)
    (hc : s.cmd = payload ++ rest) :
    ∃ t, exec i s = .next t ∧ t.Accepting ∧ t.cmd = rest := by
  cases i with
  | update len =>
    have hp : s.phase = .absorbing := hphase.resolve_right nofun
    obtain rfl : len = payload.length := by
      rw [commandLength] at hlen
      omega
    exact ⟨_, execUpdate_chunk hp hc, ⟨ha.noRst, ha.notPending, ha.digestTaken, ha.notFault⟩, rfl⟩
  | finalize =>
    have hp : s.phase = .absorbing := hphase.resolve_right nofun
    obtain rfl : payload = [] := List.eq_nil_of_length_eq_zero (Nat.add_right_cancel hlen)
    exact ⟨_, exec_finalize_of_always hp htaking ha.digestTaken, ⟨ha.noRst, ha.notPending, rfl, nofun⟩, hc⟩
  | reset =>
    obtain rfl : payload = [] := List.eq_nil_of_length_eq_zero (Nat.add_right_cancel hlen)
    exact ⟨_, exec_reset_clears ha.notFault, ha.clearSession, hc⟩

/-! ## The statements -/

/-- Settles O51: the step takes the command's word, and the command then completes. -/
theorem commandCompletesOnceItsBytesAreThere : Obligations.CommandCompletesOnceItsBytesAreThere := by
  intro s i payload rest ha hphase htaking hi hlen hc
  rw [List.append_assoc] at hc
  rw [step_of_encode ha hi hc]
  exact exec_completes (ha.set_cmd (payload ++ rest)) hphase htaking hlen rfl

/-- Settles O17: the fields the host writes are none the invariant speaks of. -/
theorem hostMovesKeepTheInvariant : Obligations.HostMovesKeepTheInvariant :=
  fun s hinv => ⟨fun bytes => hinv.set_cmd (s.cmd ++ bytes), hinv.hostWilling, hinv.hostRst⟩

/-- Settles O52: at a good end a step finds no word to take, and at a bad end it stands in FAULT. -/
theorem endedRunsStayEnded : Obligations.EndedRunsStayEnded := by
  refine ⟨fun s hgood => ?good, fun s hinv hbad => ?bad, fun s hgood hbad => hgood.accepting.notFault hbad.inFault⟩
  case good =>
    have hshort : s.cmd.length < 4 := by simp [hgood.streamTaken]
    exact runSteps_of_fixed (step_of_short hgood.accepting hshort)
  case bad =>
    exact runSteps_of_fault hbad.noRst (hinv.digest_nil_of_fault hbad.inFault) hbad.inFault

end Sys2Proof.Machine
